-- ==== Sys2Proof/Word.lean ====
section
/-! DEFINITION. The words of QSR-CODEC: a byte of the logical buffer, a cell of the wire buffer, a command descriptor. -/

namespace Sys2Proof

/-- A byte of the logical buffer: 8 bits (R14). -/
abbrev Byte := BitVec 8

/-- A cell of the wire buffer: 7 bits; a cell has no bit 7 at all (R15). -/
abbrev Cell7 := BitVec 7

/-- A command descriptor: 64 bits, format D (R50). -/
abbrev Descriptor := BitVec 64

end Sys2Proof
end

