-- ==== Sys2Proof/Syntax.lean ====
section
/-! DEFINITION. The nine commands of the opcode map (R53), each field at the width the descriptor gives it (R50); and the lines
of the spec's listing syntax (R58) with its pseudo-commands (R59), whose operands are natural numbers as a person writes them. -/

namespace Sys2Proof

/-- A decoded command: one constructor per row of `spec/opcode_table.json`. Operands follow the listing's order (R58). -/
inductive Instr where
  /-- R70: read the `w`-bit field at bit address `off` into RES. -/
  | extract (off : BitVec 16) (w : BitVec 8)
  /-- R71: write the low `w` bits of `val` at bit address `off`. -/
  | set (off : BitVec 16) (w : BitVec 8) (val : BitVec 32)
  /-- R80: wire buffer to logical buffer. -/
  | unpack
  /-- R81: logical buffer to wire buffer. -/
  | pack
  /-- R90: make the logical buffer `n` zero bytes. -/
  | lclr (n : BitVec 16)
  /-- R91: empty the wire buffer. -/
  | wclr
  /-- R92: append the wire byte `b`. -/
  | wpush (b : BitVec 8)
  /-- R93: read the wire cell `idx` into RES. -/
  | wrd (idx : BitVec 16)
  /-- R94: acknowledge a fault. -/
  | fclr
  deriving DecidableEq, Repr

/-- A command as a listing writes it (R58): the operands are natural numbers, which may not fit their fields. -/
inductive Source where
  | extract (off w : Nat)
  | set (off w val : Nat)
  | unpack
  | pack
  | lclr (n : Nat)
  | wclr
  | wpush (b : Nat)
  | wrd (idx : Nat)
  | fclr
  deriving DecidableEq, Repr

/-- A line of a listing: a command (R58) or a pseudo-command (R59). -/
inductive Line where
  | command (c : Source)
  /-- `LRDB i`: RES <- byte `i` of the logical buffer. -/
  | lrdb (i : Nat)
  /-- `LWRB i, b`: byte `i` of the logical buffer <- `b`. -/
  | lwrb (i b : Nat)
  /-- `WLOAD b0, ..., bm`: make the wire buffer exactly these bytes. -/
  | wload (bs : List Nat)
  /-- `LLOAD b0, ..., bm`: make the logical buffer exactly these bytes. -/
  | lload (bs : List Nat)
  deriving DecidableEq, Repr

end Sys2Proof
end

