-- ==== Sys2Proof/Decode.lean ====
section
/-! DEFINITION. Descriptors (30_encoding.md): the four fields of format D, the decoder, total on all `2^64` descriptors (R52), the
encoder, and the opcode map's mask and match columns (R53). -/

namespace Sys2Proof

/-! ## The fields of format D (R50) -/

/-- `d.op = d[63:56]`. -/
def descOp (d : Descriptor) : BitVec 8 := d.extractLsb' 56 8

/-- `d.w = d[55:48]`. -/
def descW (d : Descriptor) : BitVec 8 := d.extractLsb' 48 8

/-- `d.off = d[47:32]`. -/
def descOff (d : Descriptor) : BitVec 16 := d.extractLsb' 32 16

/-- `d.val = d[31:0]`. -/
def descVal (d : Descriptor) : BitVec 32 := d.extractLsb' 0 32

/-- `val[31:8]`, the part of `val` that WPUSH wants zero (R55). -/
def descValHigh (d : Descriptor) : BitVec 24 := d.extractLsb' 8 24

/-- `val[7:0]`, the wire byte of WPUSH (R92). -/
def descByte (d : Descriptor) : BitVec 8 := d.extractLsb' 0 8

/-- Why no row of the opcode map matches a descriptor (R52). Either way the cause is ILLEGAL_CMD. -/
inductive Illegal where
  /-- R54: a reserved command code, 0x00 or 0x0A to 0xFF. -/
  | reservedOp (op : BitVec 8)
  /-- R55: an assigned command code with a must-be-zero bit set. -/
  | mustBeZero (op : BitVec 8)
  deriving DecidableEq, Repr

/-- The command `i` if the must-be-zero fields of `d` are zero, else illegal (R55). -/
def ifZero (zero : Bool) (d : Descriptor) (i : Instr) : Except Illegal Instr :=
  if zero then .ok i else .error (.mustBeZero (descOp d))

/-- `w`, `off` and `val` are all zero: the must-be-zero fields of UNPACK, PACK, WCLR and FCLR (R53). -/
def noFields (d : Descriptor) : Bool := descW d == 0 && descOff d == 0 && descVal d == 0

/-- R52, R53: decode is total and reads no state. Each arm is a row of the opcode map: the command code, and the fields that must
be zero. -/
def decode (d : Descriptor) : Except Illegal Instr :=
  if descOp d = 0x01 then ifZero (descVal d == 0) d (.extract (descOff d) (descW d))
  else if descOp d = 0x02 then .ok (.set (descOff d) (descW d) (descVal d))
  else if descOp d = 0x03 then ifZero (noFields d) d .unpack
  else if descOp d = 0x04 then ifZero (noFields d) d .pack
  else if descOp d = 0x05 then ifZero (descW d == 0 && descVal d == 0) d (.lclr (descOff d))
  else if descOp d = 0x06 then ifZero (noFields d) d .wclr
  else if descOp d = 0x07 then ifZero (descW d == 0 && descOff d == 0 && descValHigh d == 0) d (.wpush (descByte d))
  else if descOp d = 0x08 then ifZero (descW d == 0 && descVal d == 0) d (.wrd (descOff d))
  else if descOp d = 0x09 then ifZero (noFields d) d .fclr
  else .error (.reservedOp (descOp d))

/-! ## The encoder -/

/-- R50: `d = op * 2^56 + w * 2^48 + off * 2^32 + val`. -/
def descriptor (op w : BitVec 8) (off : BitVec 16) (val : BitVec 32) : Descriptor :=
  op ++ w ++ off ++ val

/-- R58: the descriptor of a command. -/
def encode : Instr → Descriptor
  | .extract off w => descriptor 0x01 w off 0
  | .set off w val => descriptor 0x02 w off val
  | .unpack => descriptor 0x03 0 0 0
  | .pack => descriptor 0x04 0 0 0
  | .lclr n => descriptor 0x05 0 n 0
  | .wclr => descriptor 0x06 0 0 0
  | .wpush b => descriptor 0x07 0 0 (b.setWidth 32)
  | .wrd idx => descriptor 0x08 0 idx 0
  | .fclr => descriptor 0x09 0 0 0

/-! ## The opcode map's mask and match columns (R53)

The decoder does not use them; statements say that it agrees with them. -/

/-- The `mask` of a command's row of R53. -/
def opcodeMask : Instr → Descriptor
  | .extract _ _ => 0xFF000000FFFFFFFF
  | .set _ _ _ => 0xFF00000000000000
  | .unpack => 0xFFFFFFFFFFFFFFFF
  | .pack => 0xFFFFFFFFFFFFFFFF
  | .lclr _ => 0xFFFF0000FFFFFFFF
  | .wclr => 0xFFFFFFFFFFFFFFFF
  | .wpush _ => 0xFFFFFFFFFFFFFF00
  | .wrd _ => 0xFFFF0000FFFFFFFF
  | .fclr => 0xFFFFFFFFFFFFFFFF

/-- The `match` of a command's row of R53. -/
def opcodeMatch : Instr → Descriptor
  | .extract _ _ => 0x0100000000000000
  | .set _ _ _ => 0x0200000000000000
  | .unpack => 0x0300000000000000
  | .pack => 0x0400000000000000
  | .lclr _ => 0x0500000000000000
  | .wclr => 0x0600000000000000
  | .wpush _ => 0x0700000000000000
  | .wrd _ => 0x0800000000000000
  | .fclr => 0x0900000000000000

/-! ## The host's entry -/

/-- The descriptor that the opcode table's numbering gives: one 64-bit word, bit 0 its least significant bit; of `w` the low
`nbits` bits count and every bit above is 0. -/
def tableDescriptor (nbits w : Nat) : Descriptor := BitVec.ofNat 64 (w % 2 ^ nbits)

/-- What the decoder reads from the descriptor whose bits are `w`; none where it is illegal. -/
def decodeTableWord (nbits w : Nat) : Option Instr := (decode (tableDescriptor nbits w)).toOption

end Sys2Proof
end

