-- ==== Sys2Proof/Machine/State.lean ====
section
/-! DEFINITION. The state of QSR-CODEC (10_state.md), the causes a command can fault with (60_exceptions.md), the host's
transactions, and the state after reset. -/

namespace Sys2Proof.Machine

/-- A memory of `w`-bit cells: (index, value) pairs, indices strictly rising. An index that is not listed has no value: nothing
has written it since reset (R24: its contents are unspecified). With `w = 8` an entry is a `Host.Cell`. -/
abbrev Memory (w : Nat) := List (Nat × BitVec w)

/-- The causes of a fault of the block (R101). Raising one is a NEXT state (R104), not a `Fault` of this model. -/
inductive Cause where
  /-- The descriptor matches no row of the opcode map. -/
  | illegalCmd
  /-- EXTRACT, SET: `w > 32`. -/
  | badWidth
  /-- EXTRACT, SET, LCLR, WRD: an operand outside the buffer. -/
  | range
  /-- PACK: `LLEN mod 7 != 0`. -/
  | packLen
  /-- WPUSH: bit 7 of the byte is set. -/
  | data7
  /-- WPUSH: the wire buffer is full. -/
  | wfull
  deriving DecidableEq, Repr

/-- One transaction of the host (R4, R22, R23, R24). -/
inductive HostAction where
  /-- A 64-bit descriptor on the command port (R22). -/
  | command (d : Descriptor)
  /-- A read-port access to register number `n` (R23). -/
  | read (n : Fin 8)
  /-- Reset asserted (R24). -/
  | reset
  deriving DecidableEq, Repr

/-- The reasons a step can stop. A fault of the block (R101) is none of them: it is a next state. These four are raised only by an
access that the spec gives no meaning, in states that no run from reset reaches (R20, R21); each is safe: the model stops. -/
inductive Fault where
  /-- Raised by a command that reads a byte of LBUF below LLEN that nothing has written. Safe. -/
  | unwrittenByte
  /-- Raised by a command that reads a byte of LBUF at or past `LBYTES`, which does not exist (R14). Safe. -/
  | noSuchByte
  /-- Raised by a command that reads a cell of WBUF below WLEN that nothing has written. Safe. -/
  | unwrittenCell
  /-- Raised by a command that accesses a cell of WBUF at or past `WBYTES`, which does not exist (R15). Safe. -/
  | noSuchCell
  deriving DecidableEq, Repr

/-- The refusals. No arm of `exec` is refused in this model. -/
inductive Refusal where
  /-- Raised by an arm of `exec` whose command has no meaning yet (there is none). Safe: the model stops. -/
  | notModelled (mnemonic : String)
  deriving DecidableEq, Repr

/-- The whole state of the block (R10), and the two ends of the host's ports. -/
structure State where
  /-- LBUF, the logical buffer (R14). -/
  lbuf : Memory 8
  /-- WBUF, the wire buffer (R15). -/
  wbuf : Memory 7
  /-- LLEN, the logical length (R12). -/
  llen : BitVec 16
  /-- WLEN, the wire length (R13). -/
  wlen : BitVec 16
  /-- RES, the result register (R11). -/
  res : BitVec 32
  /-- STATUS: bit 0 is F, bits 7:1 read 0 (R17). -/
  status : BitVec 8
  /-- ERR, the cause code of the fault that set F (R18). -/
  err : BitVec 8
  /-- EINFO, the descriptor of the command that set F (R19). -/
  einfo : BitVec 64
  /-- The MODEL's own field: what the host will do, oldest first. The input of the model (R4); the block holds no queue. -/
  host : List HostAction
  /-- The MODEL's own field: what the read port has answered, newest first (R23). -/
  answers : List (Fin 8 × BitVec 64)
  deriving DecidableEq, Repr

/-- R24, R121: the state after reset. The contents of both buffers are unspecified: nothing is listed. The host has issued nothing
and been answered nothing. -/
def State.reset : State where
  lbuf := []
  wbuf := []
  llen := 0
  wlen := 0
  res := 0
  status := 0
  err := 0
  einfo := 0
  host := []
  answers := []

end Sys2Proof.Machine
end

