-- ==== Sys2Proof/Machine/Flags.lean ====
section
/-! DEFINITION. STATUS and its one flag F (R17). There are no condition codes: F is the only flag of the block, and no command
result depends on any other. -/

namespace Sys2Proof.Machine

/-- STATUS as it reads: bit 0 is F, bits 7:1 always read 0 (R17). -/
def readStatus (s : State) : BitVec 8 := s.status &&& 0x01

/-- F, bit 0 of STATUS (R17). -/
def faultFlag (s : State) : Bool := (readStatus s).getLsbD 0

/-- The value STATUS holds when F is `f`: bits 7:1 cannot be written (R17). -/
def statusOf (f : Bool) : BitVec 8 := (BitVec.ofBool f).setWidth 8

end Sys2Proof.Machine
end

