-- ==== Sys2Proof/Config.lean ====
section
/-! DEFINITION. The implementation parameters of R5, at the values this hardware takes. There is no other parameter, and the
spec leaves no value open that an instruction could show, so there is no free value here. -/

namespace Sys2Proof.Config

/-- `NGROUPS`: the number of 7-byte (8-cell) groups both buffers hold (R5, D2). -/
abbrev nGroups : Nat := 64

/-- `LBYTES = 7 * NGROUPS`: the capacity of the logical buffer in bytes, 448 (R5). -/
abbrev lBytes : Nat := 7 * nGroups

/-- `WBYTES = 8 * NGROUPS`: the capacity of the wire buffer in cells, 512 (R5). -/
abbrev wBytes : Nat := 8 * nGroups

/-- `VW`: the largest legal field width, in bits (R5, D3). -/
abbrev vw : Nat := 32

end Sys2Proof.Config
end

