-- ==== Sys2Proof/Machine/Operands.lean ====
section
/-! DEFINITION. The operand checks of the commands, each in the order its rule lists them (R61 step 3). Every operand is an
unsigned field used as it stands, compared in natural arithmetic (R51): nothing wraps. A check answers the cause to raise, if any. -/

namespace Sys2Proof.Machine

/-- R72: the checks of EXTRACT and SET. `w > 32` is BAD_WIDTH; then `off + w > 8 * LLEN` is RANGE. -/
def accessCheck (off : BitVec 16) (w : BitVec 8) (s : State) : Option Cause :=
  if Config.vw < w.toNat then some .badWidth
  else if 8 * s.llen.toNat < off.toNat + w.toNat then some .range
  else none

/-- R81: the check of PACK, `LLEN mod 7 != 0`. -/
def packCheck (s : State) : Option Cause :=
  if s.llen.toNat % 7 ≠ 0 then some .packLen else none

/-- R90: the check of LCLR, `n > LBYTES`. -/
def lclrCheck (n : BitVec 16) : Option Cause :=
  if Config.lBytes < n.toNat then some .range else none

/-- R92: the checks of WPUSH. `b[7] = 1` is DATA7; then `WLEN = WBYTES` is WFULL. -/
def wpushCheck (b : BitVec 8) (s : State) : Option Cause :=
  if b.getLsbD 7 then some .data7
  else if s.wlen.toNat = Config.wBytes then some .wfull
  else none

/-- R93: the check of WRD, `idx >= WLEN`. -/
def wrdCheck (idx : BitVec 16) (s : State) : Option Cause :=
  if s.wlen.toNat ≤ idx.toNat then some .range else none

/-- R36: how many bytes a field of width `w` at bit address `k` touches, bytes `k div 8` through `(k+w-1) div 8`; none when the
field is empty. -/
def bytesTouched (k w : Nat) : Nat :=
  if w = 0 then 0 else (k + w - 1) / 8 + 1 - k / 8

end Sys2Proof.Machine
end

