-- ==== Sys2Proof/Machine/Ops.lean ====
section
/-! DEFINITION. The operations the commands share: reading and writing a buffer, the bit primitives MemRead and MemWrite (20_memory.md),
the group map and the length functions of the packer (41_packer.md), the updates of the state, taking a fault and returning from
one (60_exceptions.md), and the order of checks of one command (R61). -/

namespace Sys2Proof.Machine

/-! ## Buffers as sparse memories -/

/-- The value at index `a`, if something has written it. -/
def Memory.read {w : Nat} : Memory w → Nat → Option (BitVec w)
  | [], _ => none
  | (b, v) :: rest, a => if a = b then some v else Memory.read rest a

/-- Write `v` at index `a`; the indices keep rising. -/
def Memory.write {w : Nat} : Memory w → Nat → BitVec w → Memory w
  | [], a, v => [(a, v)]
  | (b, u) :: rest, a, v =>
    if a < b then (a, v) :: (b, u) :: rest
    else if a = b then (a, v) :: rest
    else (b, u) :: Memory.write rest a v

/-- Write `f i` at every index `i < n`, and leave the others. -/
def Memory.fill {w : Nat} (m : Memory w) (n : Nat) (f : Nat → BitVec w) : Memory w :=
  (List.range n).map (fun i => (i, f i)) ++ m.filter (fun c => decide (n ≤ c.1))

/-- The canonical form: indices strictly rising. An index that is not listed reads as no value, so no entry can equal it. -/
abbrev Memory.wf {w : Nat} (m : Memory w) : Prop := m.Pairwise (fun x y => x.1 < y.1)

/-- Every index below `n` has a value. -/
abbrev Memory.holds {w : Nat} (m : Memory w) (n : Nat) : Prop := ∀ i, i < n → (m.read i).isSome

/-- Every listed index is below `n`. -/
abbrev Memory.below {w : Nat} (m : Memory w) (n : Nat) : Prop := ∀ c ∈ m, c.1 < n

/-- The value at index `a`. The 0 stands for nothing: a command reaches an index through `needBytes` or `needCells` alone, which
stop it where the index has no value (log entry 4). -/
def Memory.at {w : Nat} (m : Memory w) (a : Nat) : BitVec w := (m.read a).getD 0

/-! ## Which indices a command may access -/

/-- The fault of reading the `count` bytes of LBUF from index `first` on, if one of them does not exist or has no value. -/
def needBytes (s : State) (first count : Nat) : Option Fault :=
  if Config.lBytes < first + count then some .noSuchByte
  else if (List.range count).all (fun i => (s.lbuf.read (first + i)).isSome) then none
  else some .unwrittenByte

/-- The fault of reading the `count` cells of WBUF from index `first` on, if one of them does not exist or has no value. -/
def needCells (s : State) (first count : Nat) : Option Fault :=
  if Config.wBytes < first + count then some .noSuchCell
  else if (List.range count).all (fun i => (s.wbuf.read (first + i)).isSome) then none
  else some .unwrittenCell

/-- The fault of writing cell `i` of WBUF, if it does not exist (R15). -/
def roomForCell (i : Nat) : Option Fault :=
  if Config.wBytes ≤ i then some .noSuchCell else none

/-- The next state `t`, unless the access it needs is a fault of the model. -/
def unlessFault (need : Option Fault) (t : State) : Host.Outcome State Fault Refusal :=
  match need with
  | some f => .fault f
  | none => .next t

/-! ## The bit primitives of the logical buffer -/

/-- R31: `LBit(k) = (LBUF[k div 8] >> (k mod 8)) & 1`. -/
def lbit (m : Memory 8) (k : Nat) : Bool := (m.at (k / 8)).getLsbD (k % 8)

/-- R33: `MemRead(k, n) = sum over i in 0..n-1 of LBit(k+i) * 2^i`. -/
def memRead (m : Memory 8) (k : Nat) : Nat → Nat
  | 0 => 0
  | n + 1 => memRead m k n + (lbit m (k + n)).toNat * 2 ^ n

/-- R34, one target bit: `LBUF[B] <- (LBUF[B] & ~(1 << b)) | (bit << b)` with `B = a div 8`, `b = a mod 8`. -/
def writeBit (m : Memory 8) (a : Nat) (bit : Bool) : Memory 8 :=
  m.write (a / 8) ((m.at (a / 8) &&& ~~~(1#8 <<< (a % 8))) ||| ((BitVec.ofBool bit).setWidth 8 <<< (a % 8)))

/-- R34: `MemWrite(k, n, v)`, the target bits `k+i` for `i` in `0..n-1` in turn. Bits `n` and above of `v` are ignored. -/
def memWrite (m : Memory 8) (k : Nat) (v : BitVec 32) : Nat → Memory 8
  | 0 => m
  | n + 1 => writeBit (memWrite m k v n) (k + n) (v.getLsbD n)

/-! ## The packer's group map and length functions -/

/-- R82, unpacking: `u_j = ((p_j >> j) | (p_(j+1) << (7 - j))) & 0xFF`, for `j` in 0..6. -/
def unpackByte (p q : BitVec 7) (j : Nat) : BitVec 8 :=
  ((p.setWidth 16 >>> j) ||| (q.setWidth 16 <<< (7 - j))).setWidth 8

/-- R82, packing, for `k` in 1..6: `p_k = ((u_(k-1) >> (8 - k)) | (u_k << k)) & 0x7F`. -/
def packMiddle (t u : BitVec 8) (k : Nat) : BitVec 7 :=
  ((t.setWidth 16 >>> (8 - k)) ||| (u.setWidth 16 <<< k)).setWidth 7

/-- R82, packing: cell `k` of the group whose bytes are `u 0` to `u 6`; the first is `u_0 & 0x7F`, the last `u_6 >> 1`. -/
def packCell (u : Nat → BitVec 8) (k : Nat) : BitVec 7 :=
  if k = 0 then (u 0).setWidth 7
  else if k = 7 then (u 6 >>> 1).setWidth 7
  else packMiddle (u (k - 1)) (u k) k

/-- R80: logical byte `i` of the unpacked wire buffer. Byte `7*g + j` comes from cells `8*g + j` and `8*g + j + 1`, in a full
group and in the partial one alike. -/
def unpackedByte (m : Memory 7) (i : Nat) : BitVec 8 :=
  unpackByte (m.at (8 * (i / 7) + i % 7)) (m.at (8 * (i / 7) + i % 7 + 1)) (i % 7)

/-- R81: wire cell `i` of the packed logical buffer. Cell `8*g + k` comes from the bytes `7*g` to `7*g + 6`. -/
def packedCell (m : Memory 8) (i : Nat) : BitVec 7 :=
  packCell (fun j => m.at (7 * (i / 8) + j)) (i % 8)

/-- R84: `ulen(n) = 7*G + (T - 1 if T >= 2 else 0)`, with `G = n div 8`, `T = n mod 8`. -/
def ulen (n : Nat) : Nat := 7 * (n / 8) + (if 2 ≤ n % 8 then n % 8 - 1 else 0)

/-- R84: `plen(m) = 8 * (m div 7)`. -/
def plen (m : Nat) : Nat := 8 * (m / 7)

/-! ## Updates of the state -/

/-- Write RES. -/
def State.withRes (s : State) (v : BitVec 32) : State := { s with res := v }

/-- Write bytes of LBUF; LLEN stays. -/
def State.withLbuf (s : State) (m : Memory 8) : State := { s with lbuf := m }

/-- Make the logical buffer the bytes `f 0` to `f (n-1)`: LBUF and LLEN. -/
def State.withLogical (s : State) (n : Nat) (f : Nat → BitVec 8) : State :=
  { s with lbuf := s.lbuf.fill n f, llen := BitVec.ofNat 16 n }

/-- Make the wire buffer the cells `f 0` to `f (n-1)`: WBUF and WLEN. -/
def State.withWire (s : State) (n : Nat) (f : Nat → BitVec 7) : State :=
  { s with wbuf := s.wbuf.fill n f, wlen := BitVec.ofNat 16 n }

/-- Append one cell: `WBUF[WLEN] <- c`, `WLEN <- WLEN + 1`. -/
def State.withCell (s : State) (c : BitVec 7) : State :=
  { s with wbuf := s.wbuf.write s.wlen.toNat c, wlen := BitVec.ofNat 16 (s.wlen.toNat + 1) }

/-- Write WLEN; WBUF stays. -/
def State.withWlen (s : State) (n : BitVec 16) : State := { s with wlen := n }

/-- Write the three fault registers. -/
def State.withFaultRegs (s : State) (f : Bool) (code : BitVec 8) (d : Descriptor) : State :=
  { s with status := statusOf f, err := code, einfo := d }

/-- Replace the host's coming transactions. -/
def State.withHost (s : State) (h : List HostAction) : State := { s with host := h }

/-- Record what the read port answered. -/
def State.withAnswer (s : State) (n : Fin 8) (v : BitVec 64) : State :=
  { s with answers := (n, v) :: s.answers }

/-! ## Taking a fault, and returning from one -/

/-- R101: the cause codes, the value written to ERR. -/
def Cause.code : Cause → BitVec 8
  | .illegalCmd => 1
  | .badWidth => 2
  | .range => 3
  | .packLen => 4
  | .data7 => 5
  | .wfull => 6

/-- R104, fault entry: `STATUS.F <- 1`, `ERR <- c`, `EINFO <- d`, and nothing else. -/
def takeFault (c : Cause) (d : Descriptor) (s : State) : State := s.withFaultRegs true c.code d

/-- R94, R107: the return from a fault: `STATUS.F <- 0`, `ERR <- 0`, `EINFO <- 0`, and nothing else. -/
def returnFromFault (s : State) : State := s.withFaultRegs false 0 0

/-! ## The order of checks -/

/-- R61 for the command `i`, not FCLR: dropped while F = 1 (step 1, R106); then the operand check (step 3), whose cause enters a
fault with the command's own descriptor (R104); then the effect (step 4). -/
def runCommand (i : Instr) (check : Option Cause) (effect : Host.Outcome State Fault Refusal) (s : State) :
    Host.Outcome State Fault Refusal :=
  if faultFlag s then .next s
  else
    match check with
    | some c => .next (takeFault c (encode i) s)
    | none => effect

end Sys2Proof.Machine
end

