-- ==== Sys2Proof/Machine/BitAccessor.lean ====
section
/-! DEFINITION. The bit accessor commands (40_bit_accessor.md): EXTRACT and SET. -/

namespace Sys2Proof.Machine

/-- R70: `RES <- zext_32(MemRead(off, w))`, after the checks of R72. -/
def execExtract (off : BitVec 16) (w : BitVec 8) (s : State) : Host.Outcome State Fault Refusal :=
  runCommand (.extract off w) (accessCheck off w s)
    (unlessFault (needBytes s (off.toNat / 8) (bytesTouched off.toNat w.toNat))
      (s.withRes (BitVec.ofNat 32 (memRead s.lbuf off.toNat w.toNat)))) s

/-- R71: `MemWrite(off, w, val)`, after the checks of R72. -/
def execSet (off : BitVec 16) (w : BitVec 8) (val : BitVec 32) (s : State) : Host.Outcome State Fault Refusal :=
  runCommand (.set off w val) (accessCheck off w s)
    (unlessFault (needBytes s (off.toNat / 8) (bytesTouched off.toNat w.toNat))
      (s.withLbuf (memWrite s.lbuf off.toNat val w.toNat))) s

end Sys2Proof.Machine
end

