-- ==== Sys2Proof/Machine/Buffer.lean ====
section
/-! DEFINITION. The buffer access and system commands (42_buffer_and_system.md): LCLR, WCLR, WPUSH, WRD, FCLR. -/

namespace Sys2Proof.Machine

/-- R90: the logical buffer becomes `n` zero bytes. -/
def execLclr (n : BitVec 16) (s : State) : Host.Outcome State Fault Refusal :=
  runCommand (.lclr n) (lclrCheck n) (.next (s.withLogical n.toNat (fun _ => 0))) s

/-- R91: `WLEN <- 0`. No check. -/
def execWclr (s : State) : Host.Outcome State Fault Refusal :=
  runCommand .wclr none (.next (s.withWlen 0)) s

/-- R92: `WBUF[WLEN] <- b[6:0]`, `WLEN <- WLEN + 1`. -/
def execWpush (b : BitVec 8) (s : State) : Host.Outcome State Fault Refusal :=
  runCommand (.wpush b) (wpushCheck b s)
    (unlessFault (roomForCell s.wlen.toNat) (s.withCell (b.setWidth 7))) s

/-- R93: `RES <- zext_32(WBUF[idx])`. -/
def execWrd (idx : BitVec 16) (s : State) : Host.Outcome State Fault Refusal :=
  runCommand (.wrd idx) (wrdCheck idx s)
    (unlessFault (needCells s idx.toNat 1) (s.withRes ((s.wbuf.at idx.toNat).setWidth 32))) s

/-- R94: FCLR clears F, ERR and EINFO. The only command executed while F = 1; with F = 0 it is executed too. -/
def execFclr (s : State) : Host.Outcome State Fault Refusal := .next (returnFromFault s)

end Sys2Proof.Machine
end

