-- ==== Sys2Proof/Machine/Packer.lean ====
section
/-! DEFINITION. The packer commands (41_packer.md): UNPACK and PACK. -/

namespace Sys2Proof.Machine

/-- R80: `LBUF[0..ulen(WLEN)-1]` becomes the unpacked wire buffer and LLEN its length; WBUF stays. No check. -/
def execUnpack (s : State) : Host.Outcome State Fault Refusal :=
  runCommand .unpack none
    (unlessFault (needCells s 0 s.wlen.toNat)
      (s.withLogical (ulen s.wlen.toNat) (unpackedByte s.wbuf))) s

/-- R81: `WBUF[0..plen(LLEN)-1]` becomes the packed logical buffer and WLEN its length; LBUF stays. -/
def execPack (s : State) : Host.Outcome State Fault Refusal :=
  runCommand .pack (packCheck s)
    (unlessFault (needBytes s 0 s.llen.toNat)
      (s.withWire (plen s.llen.toNat) (packedCell s.lbuf))) s

end Sys2Proof.Machine
end

