-- ==== Sys2Proof/Machine/Dispatch.lean ====
section
/-! DEFINITION. The dispatch: one arm per command, each a direct call of its meaning. -/

namespace Sys2Proof.Machine

def exec (i : Instr) (s : State) : Host.Outcome State Fault Refusal :=
  match i with
  | .extract off w => Sys2Proof.Machine.execExtract off w s
  | .set off w val => Sys2Proof.Machine.execSet off w val s
  | .unpack => Sys2Proof.Machine.execUnpack s
  | .pack => Sys2Proof.Machine.execPack s
  | .lclr n => Sys2Proof.Machine.execLclr n s
  | .wclr => Sys2Proof.Machine.execWclr s
  | .wpush b => Sys2Proof.Machine.execWpush b s
  | .wrd idx => Sys2Proof.Machine.execWrd idx s
  | .fclr => Sys2Proof.Machine.execFclr s

end Sys2Proof.Machine
end

