-- ==== Sys2Proof/Machine/Port.lean ====
section
/-! DEFINITION. The host's ports (10_state.md section 6): the command port, the read port and the reset input. One transaction of
the host is one step. -/

namespace Sys2Proof.Machine

/-- An illegal descriptor (R52): dropped while F = 1 (R106), else it faults with ILLEGAL_CMD (R61 step 2). -/
def rejectIllegal (d : Descriptor) (s : State) : State :=
  if faultFlag s then s else takeFault .illegalCmd d s

/-- R22: the command port takes any descriptor; decode says what it does. -/
def acceptCommand (d : Descriptor) (s : State) : Host.Outcome State Fault Refusal :=
  match decode d with
  | .ok i => exec i s
  | .error _ => .next (rejectIllegal d s)

/-- R23: the value the read port returns for register number `n`, zero-extended to 64 bits; 6 and 7 return 0. -/
def readPort (s : State) (n : Fin 8) : BitVec 64 :=
  if n.val = 0 then (readStatus s).setWidth 64
  else if n.val = 1 then s.err.setWidth 64
  else if n.val = 2 then s.res.setWidth 64
  else if n.val = 3 then s.llen.setWidth 64
  else if n.val = 4 then s.wlen.setWidth 64
  else if n.val = 5 then s.einfo
  else 0

/-- R23: the width of the value returned; numbers 6 and 7 name no register. -/
def portWidth (n : Fin 8) : Option Nat :=
  if n.val = 0 then some 8
  else if n.val = 1 then some 8
  else if n.val = 2 then some 32
  else if n.val = 3 then some 16
  else if n.val = 4 then some 16
  else if n.val = 5 then some 64
  else none

/-- R24, R120: reset puts the block in the reset state whatever it was doing. What the host will do next, and what it has been
answered, are the host's own. -/
def resetBlock (s : State) : State := { State.reset with host := s.host, answers := s.answers }

/-- One transaction of the host, executed completely before the next is taken (R22). -/
def transact (a : HostAction) (s : State) : Host.Outcome State Fault Refusal :=
  match a with
  | .command d => acceptCommand d s
  | .read n => .next (s.withAnswer n (readPort s n))
  | .reset => .next (resetBlock s)

/-- Take the host's oldest transaction. With none there the block waits for one, unchanged (log entry 2). -/
def takeTransaction (s : State) : Host.Outcome State Fault Refusal :=
  match s.host with
  | [] => .next s
  | a :: rest => transact a (s.withHost rest)

/-- The descriptor of `w` placed as the host's next transaction. -/
def placeCommand (s : State) (nbits w : Nat) : State :=
  s.withHost (.command (tableDescriptor nbits w) :: s.host)

end Sys2Proof.Machine
end

