-- ==== Sys2Proof/Machine/Step.lean ====
section
/-! DEFINITION. The step: one transaction of the host. -/

namespace Sys2Proof.Machine

/-- One step of the block (R4): the host's next transaction, taken and executed. -/
def step (s : State) : Host.Outcome State Fault Refusal := takeTransaction s

/-- `s` with the command whose bits are `w` as the host's next transaction, so that the next step executes it. -/
def State.withFetchWord (s : State) (nbits w : Nat) : State := placeCommand s nbits w

end Sys2Proof.Machine
end

