-- ==== Sys2Proof/WellFormed.lean ====
section
/-! DEFINITION. Well-formedness. An `Instr` carries it in its types: every operand has the width of its descriptor field (R50), so
every `Instr` can be encoded and none is ill-formed. A line of a listing has operands of any size, and an assembler rejects those
that do not fit their fields (R58); it does not reject values that fit but fault (`w = 40`, `b = 0x80`). -/

namespace Sys2Proof

/-- R58: the range checks of an assembler on one command: `off`, `n`, `idx` fit 16 bits, `w` and `b` fit 8, `val` fits 32. -/
def Source.wellFormed : Source → Bool
  | .extract off w => decide (off ≤ 65535) && decide (w ≤ 255)
  | .set off w val => decide (off ≤ 65535) && decide (w ≤ 255) && decide (val ≤ 4294967295)
  | .unpack => true
  | .pack => true
  | .lclr n => decide (n ≤ 65535)
  | .wclr => true
  | .wpush b => decide (b ≤ 255)
  | .wrd idx => decide (idx ≤ 65535)
  | .fclr => true

/-- R58, R59: the range checks of an assembler on one line. `LRDB` and `LWRB` need `8*i <= 65535`; `WLOAD` and `LLOAD` name at
least the one byte `b0`; every byte fits 8 bits; the last byte of `LLOAD` is written by an `LWRB`. -/
def Line.wellFormed : Line → Bool
  | .command c => c.wellFormed
  | .lrdb i => decide (8 * i ≤ 65535)
  | .lwrb i b => decide (8 * i ≤ 65535) && decide (b ≤ 255)
  | .wload bs => !bs.isEmpty && bs.all (fun b => decide (b ≤ 255))
  | .lload bs => !bs.isEmpty && decide (8 * (bs.length - 1) ≤ 65535) && bs.all (fun b => decide (b ≤ 255))

end Sys2Proof
end

