-- ==== Sys2Proof/Machine/Listing.lean ====
section
/-! DEFINITION. The spec's listing syntax: from a line of text to commands and descriptors (R58, R59). An assembler rejects what does
not fit a field. Where blanks may stand and which case a hexadecimal digit has are the model's own (log entry 14). -/

namespace Sys2Proof.Machine

/-! ## From a line to commands -/

/-- R58: the command that a listing's command stands for, each operand in its field. -/
def Source.instr : Source → Instr
  | .extract off w => .extract (BitVec.ofNat 16 off) (BitVec.ofNat 8 w)
  | .set off w val => .set (BitVec.ofNat 16 off) (BitVec.ofNat 8 w) (BitVec.ofNat 32 val)
  | .unpack => .unpack
  | .pack => .pack
  | .lclr n => .lclr (BitVec.ofNat 16 n)
  | .wclr => .wclr
  | .wpush b => .wpush (BitVec.ofNat 8 b)
  | .wrd idx => .wrd (BitVec.ofNat 16 idx)
  | .fclr => .fclr

/-- R59: `LRDB i` is `EXTRACT 8*i, 8`. -/
def readByteCommand (i : Nat) : Source := .extract (8 * i) 8

/-- R59: `LWRB i, b` is `SET 8*i, 8, b`. -/
def writeByteCommand (i b : Nat) : Source := .set (8 * i) 8 b

/-- R59: `LWRB i, b0`, `LWRB i+1, b1` and so on. -/
def writeByteCommands : Nat → List Nat → List Source
  | _, [] => []
  | i, b :: bs => writeByteCommand i b :: writeByteCommands (i + 1) bs

/-- R58, R59: the commands a line expands to. -/
def expandLine : Line → List Source
  | .command c => [c]
  | .lrdb i => [readByteCommand i]
  | .lwrb i b => [writeByteCommand i b]
  | .wload bs => .wclr :: bs.map .wpush
  | .lload bs => .lclr bs.length :: writeByteCommands 0 bs

/-- R58: the descriptors of a line, or none where an assembler rejects it. -/
def assembleLine (l : Line) : Option (List Descriptor) :=
  if l.wellFormed then some ((expandLine l).map (fun c => encode (Source.instr c))) else none

/-! ## From text to a line -/

/-- A blank. -/
def isBlank (c : Char) : Bool := c == ' ' || c == '\t'

/-- The characters without blanks at either end. -/
def trimBlanks (cs : List Char) : List Char :=
  ((cs.dropWhile isBlank).reverse.dropWhile isBlank).reverse

/-- The parts of a list between commas. -/
def splitCommas : List Char → List (List Char)
  | [] => [[]]
  | c :: cs =>
    match splitCommas cs with
    | [] => [[c]]
    | p :: ps => if c == ',' then [] :: p :: ps else (c :: p) :: ps

/-- The value of a decimal digit. -/
def decimalDigit (c : Char) : Option Nat :=
  if '0'.toNat ≤ c.toNat ∧ c.toNat ≤ '9'.toNat then some (c.toNat - '0'.toNat) else none

/-- The value of a hexadecimal digit. -/
def hexDigit (c : Char) : Option Nat :=
  if 'A'.toNat ≤ c.toNat ∧ c.toNat ≤ 'F'.toNat then some (c.toNat - 'A'.toNat + 10)
  else if 'a'.toNat ≤ c.toNat ∧ c.toNat ≤ 'f'.toNat then some (c.toNat - 'a'.toNat + 10)
  else decimalDigit c

/-- The number a list of digits stands for, after `acc`. -/
def digitsValue (digit : Char → Option Nat) (base : Nat) : Nat → List Char → Option Nat
  | acc, [] => some acc
  | acc, c :: cs =>
    match digit c with
    | some v => digitsValue digit base (base * acc + v) cs
    | none => none

/-- R6, R58: a number, decimal or with the prefix `0x` hexadecimal. -/
def parseNumber (cs : List Char) : Option Nat :=
  match cs with
  | [] => none
  | '0' :: 'x' :: [] => none
  | '0' :: 'x' :: ds => digitsValue hexDigit 16 0 ds
  | ds => digitsValue decimalDigit 10 0 ds

/-- Numbers between commas; no characters at all are no numbers. -/
def parseNumbers (cs : List Char) : Option (List Nat) :=
  if trimBlanks cs = [] then some []
  else (splitCommas cs).mapM (fun p => parseNumber (trimBlanks p))

/-- R58, R59: the line that a mnemonic and its operands make. -/
def lineOf (mnemonic : List Char) (ops : List Nat) : Option Line :=
  if mnemonic = "EXTRACT".toList then match ops with | [off, w] => some (.command (.extract off w)) | _ => none
  else if mnemonic = "SET".toList then match ops with | [off, w, val] => some (.command (.set off w val)) | _ => none
  else if mnemonic = "UNPACK".toList then match ops with | [] => some (.command .unpack) | _ => none
  else if mnemonic = "PACK".toList then match ops with | [] => some (.command .pack) | _ => none
  else if mnemonic = "LCLR".toList then match ops with | [n] => some (.command (.lclr n)) | _ => none
  else if mnemonic = "WCLR".toList then match ops with | [] => some (.command .wclr) | _ => none
  else if mnemonic = "WPUSH".toList then match ops with | [b] => some (.command (.wpush b)) | _ => none
  else if mnemonic = "WRD".toList then match ops with | [idx] => some (.command (.wrd idx)) | _ => none
  else if mnemonic = "FCLR".toList then match ops with | [] => some (.command .fclr) | _ => none
  else if mnemonic = "LRDB".toList then match ops with | [i] => some (.lrdb i) | _ => none
  else if mnemonic = "LWRB".toList then match ops with | [i, b] => some (.lwrb i b) | _ => none
  else if mnemonic = "WLOAD".toList then some (.wload ops)
  else if mnemonic = "LLOAD".toList then some (.lload ops)
  else none

/-- R58: one command a line; `;` starts a comment. A line with no command assembles to nothing. -/
def assembleText (cs : List Char) : Option (List Descriptor) :=
  let body := trimBlanks (cs.takeWhile (fun c => !(c == ';')))
  if body = [] then some []
  else
    match parseNumbers (body.dropWhile (fun c => !isBlank c)) with
    | none => none
    | some ops =>
      match lineOf (body.takeWhile (fun c => !isBlank c)) ops with
      | none => none
      | some l => assembleLine l

end Sys2Proof.Machine
end

