-- ==== Sys2Proof/Safety.lean ====
section
/-! DEFINITION. What counts as a legal state and a safe run, in the terms the statements use. The parts of R21 are named one by one;
each is a decidable proposition, so that it can be checked on a concrete state. -/

namespace Sys2Proof.Machine

/-- Both buffers are in canonical form. -/
abbrev State.Canonical (s : State) : Prop := s.lbuf.wf ∧ s.wbuf.wf

/-- R12, R13, R21: `LLEN <= LBYTES` and `WLEN <= WBYTES`. -/
abbrev State.LengthsLegal (s : State) : Prop :=
  s.llen.toNat ≤ Config.lBytes ∧ s.wlen.toNat ≤ Config.wBytes

/-- R14, R15: no byte or cell at or past its buffer's capacity. -/
abbrev State.InCapacity (s : State) : Prop := s.lbuf.below Config.lBytes ∧ s.wbuf.below Config.wBytes

/-- R20: every byte below LLEN and every cell below WLEN has been written. -/
abbrev State.Written (s : State) : Prop := s.lbuf.holds s.llen.toNat ∧ s.wbuf.holds s.wlen.toNat

/-- R17, R21: `STATUS[7:1] = 0`. -/
abbrev State.StatusLegal (s : State) : Prop := s.status = statusOf (faultFlag s)

/-- R18, R19, R21: `F = 0` exactly when `ERR = 0`; `F = 0` implies `EINFO = 0`; `ERR <= 6`. -/
abbrev State.FaultRegsAgree (s : State) : Prop :=
  (faultFlag s = false ↔ s.err = 0) ∧ (faultFlag s = false → s.einfo = 0) ∧ s.err.toNat ≤ 6

/-- The invariant of every reachable state (R21), with what R20 says of the buffers. WBUF cells below 128 and `RES < 2^32` hold by
the widths of their fields. -/
abbrev State.Inv (s : State) : Prop :=
  s.Canonical ∧ s.LengthsLegal ∧ s.InCapacity ∧ s.Written ∧ s.StatusLegal ∧ s.FaultRegsAgree

/-- R31: bit address `k` of the logical buffer names bit `k mod 8` of byte `k div 8`, and that bit is `v`. -/
abbrev BitAt (m : Memory 8) (k : Nat) (v : Bool) : Prop := ∃ b, m.read (k / 8) = some b ∧ b.getLsbD (k % 8) = v

/-- Two states that differ at most in buffer cells at or past the lengths (R20). -/
abbrev State.SameVisible (s t : State) : Prop :=
  s.llen = t.llen ∧ s.wlen = t.wlen ∧ s.res = t.res ∧ s.status = t.status ∧ s.err = t.err ∧ s.einfo = t.einfo ∧
  s.host = t.host ∧ s.answers = t.answers ∧
  (∀ i, i < s.llen.toNat → s.lbuf.read i = t.lbuf.read i) ∧
  (∀ i, i < s.wlen.toNat → s.wbuf.read i = t.wbuf.read i)

/-- A state a run from reset reaches: the host's transactions are arbitrary. -/
inductive Reachable : State → Prop where
  /-- Reset, with any transactions to come. -/
  | reset (h : List HostAction) : Reachable (State.reset.withHost h)
  /-- One step more. -/
  | step (s t : State) : Reachable s → step s = .next t → Reachable t

end Sys2Proof.Machine
end

