-- ==== Sys2Proof/Certificates/Slice0/Obligations.lean ====
section
/-! DEFINITION. The statements about QSR-CODEC, each from a numbered rule of the spec. An outcome is written out as a record update
of the state before, so that a statement carries its whole frame: what it does not name is unchanged. -/

open Sys2Proof Sys2Proof.Machine

/-! ## Descriptors and decoding (30_encoding.md) -/

/-- R50: a descriptor is `op * 2^56 + w * 2^48 + off * 2^32 + val`. -/
def Obligations.DescriptorIsItsFields : Prop :=
  ∀ d : Descriptor, d.toNat =
    (descOp d).toNat * 2 ^ 56 + (descW d).toNat * 2 ^ 48 + (descOff d).toNat * 2 ^ 32 + (descVal d).toNat

/-- R50, R53: decoding the descriptor of any command gives that command back, with every operand. -/
def Obligations.DecodeOfEncode : Prop := ∀ i : Instr, decode (encode i) = .ok i

/-- R50, R53: a descriptor that decodes to a command is that command's descriptor, bit for bit. -/
def Obligations.EncodeOfDecode : Prop := ∀ (d : Descriptor) (i : Instr), decode d = .ok i → encode i = d

/-- R53: a descriptor is command X exactly when `(d & mask_X) = match_X`, and no descriptor matches two commands' rows. -/
def Obligations.DecodeFollowsOpcodeMap : Prop :=
  (∀ (d : Descriptor) (i : Instr),
    (∃ j, decode d = .ok j ∧ opcodeMatch j = opcodeMatch i) ↔ d &&& opcodeMask i = opcodeMatch i) ∧
  (∀ (d : Descriptor) (i j : Instr), d &&& opcodeMask i = opcodeMatch i → d &&& opcodeMask j = opcodeMatch j →
    opcodeMatch i = opcodeMatch j)

/-- R52: every descriptor decodes to a command or is illegal; it is illegal exactly when no row of R53 matches; an illegal one
faults with ILLEGAL_CMD while F = 0 and is dropped while F = 1. -/
def Obligations.IllegalExactlyWhenNoRowMatches : Prop :=
  (∀ d : Descriptor, (∃ e, decode d = .error e) ↔ ∀ i, d &&& opcodeMask i ≠ opcodeMatch i) ∧
  (∀ (d : Descriptor) (s : State) (e : Illegal), decode d = .error e →
    (faultFlag s = false → acceptCommand d s = .next { s with status := 1, err := 1, einfo := d }) ∧
    (faultFlag s = true → acceptCommand d s = .next s))

/-- R54: a descriptor with a reserved command code is illegal whatever its other fields; the all-zero one is illegal. -/
def Obligations.ReservedCodesAreIllegal : Prop :=
  (∀ d : Descriptor, ((descOp d).toNat = 0 ∨ 10 ≤ (descOp d).toNat) → ∃ e, decode d = .error e) ∧
  (∃ e, decode 0 = .error e)

/-- R55: an assigned code with a must-be-zero bit set is illegal. WPUSH with `val[7] = 1` is a legal encoding that faults with
DATA7. -/
def Obligations.MustBeZeroFields : Prop :=
  (∀ d : Descriptor, (descOp d).toNat = 1 → descVal d ≠ 0 → ∃ e, decode d = .error e) ∧
  (∀ d : Descriptor, (descOp d).toNat = 3 ∨ (descOp d).toNat = 4 ∨ (descOp d).toNat = 6 ∨ (descOp d).toNat = 9 →
    descW d ≠ 0 ∨ descOff d ≠ 0 ∨ descVal d ≠ 0 → ∃ e, decode d = .error e) ∧
  (∀ d : Descriptor, (descOp d).toNat = 5 ∨ (descOp d).toNat = 8 → descW d ≠ 0 ∨ descVal d ≠ 0 →
    ∃ e, decode d = .error e) ∧
  (∀ d : Descriptor, (descOp d).toNat = 7 → descW d ≠ 0 ∨ descOff d ≠ 0 ∨ 256 ≤ (descVal d).toNat →
    ∃ e, decode d = .error e) ∧
  (∀ (b : BitVec 8) (s : State), b.getLsbD 7 = true → faultFlag s = false →
    decode (descriptor 0x07 0 0 (b.setWidth 32)) = .ok (.wpush b) ∧
    acceptCommand (descriptor 0x07 0 0 (b.setWidth 32)) s =
      .next { s with status := 1, err := 5, einfo := descriptor 0x07 0 0 (b.setWidth 32) })

/-- Words written out from R53 and R58 decode to the commands they stand for (95_test_vectors.md V-E1, V-E3, V-E7, V-E10, V-E12,
V-E13, V-E14, V-E19). -/
def Obligations.WrittenWordsDecode : Prop :=
  decodeTableWord 64 0x0104004600000000 = some (.extract 70 4) ∧
  decodeTableWord 64 0x02200003DEADBEEF = some (.set 3 32 0xDEADBEEF) ∧
  decodeTableWord 64 0x0500015E00000000 = some (.lclr 350) ∧
  decodeTableWord 64 0x070000000000005E = some (.wpush 0x5E) ∧
  decodeTableWord 64 0x0800018F00000000 = some (.wrd 399) ∧
  decodeTableWord 64 0x0900000000000000 = some .fclr ∧
  decodeTableWord 64 0x0100000000000001 = none ∧
  decodeTableWord 64 0x0000000000000000 = none

/-! ## The step and the ports (10_state.md section 6) -/

/-- R22, R61: when the host's next transaction is a descriptor that decodes to `i`, the step is `exec i` on the state whose
transactions are the remaining ones. That the transactions stand in `host` is the model's choice (log entry 1). -/
def Obligations.StepRunsDecodedCommand : Prop :=
  ∀ (s : State) (d : Descriptor) (i : Instr) (rest : List HostAction),
    s.host = .command d :: rest → decode d = .ok i → step s = exec i { s with host := rest }

/-- The model's choice (log entry 2): with no transaction to come, a step changes nothing. -/
def Obligations.StepWithoutTransactionWaits : Prop := ∀ s : State, s.host = [] → step s = .next s

/-- R23: a read-port access answers the register's current value and changes nothing of the block, whatever F is. That the step
records the answer in `answers` is the model's choice (log entry 3). -/
def Obligations.ReadPortAnswers : Prop :=
  ∀ (s : State) (n : Fin 8) (rest : List HostAction), s.host = .read n :: rest →
    ∃ v : BitVec 64, step s = .next { s with host := rest, answers := (n, v) :: s.answers } ∧
      (n = 0 → v.toNat = (faultFlag s).toNat) ∧
      (n = 1 → v.toNat = s.err.toNat) ∧
      (n = 2 → v.toNat = s.res.toNat) ∧
      (n = 3 → v.toNat = s.llen.toNat) ∧
      (n = 4 → v.toNat = s.wlen.toNat) ∧
      (n = 5 → v = s.einfo) ∧
      (n = 6 ∨ n = 7 → v = 0)

/-- R24: reset, whatever the block was doing, makes LLEN, WLEN, RES, STATUS, ERR and EINFO 0; and so they are in the reset
state. That the host's coming transactions and its answers outlive a reset is the model's choice (log entries 1 and 3). -/
def Obligations.ResetState : Prop :=
  (∀ (s : State) (rest : List HostAction), s.host = .reset :: rest →
    ∃ t, step s = .next t ∧ t.llen = 0 ∧ t.wlen = 0 ∧ t.res = 0 ∧ t.status = 0 ∧ t.err = 0 ∧ t.einfo = 0 ∧
      t.host = rest ∧ t.answers = s.answers) ∧
  (State.reset.llen = 0 ∧ State.reset.wlen = 0 ∧ State.reset.res = 0 ∧ State.reset.status = 0 ∧ State.reset.err = 0 ∧
    State.reset.einfo = 0)

/-- R24, R120: a command that reset follows leaves no trace: the state after the reset is the one reset alone gives (the model
takes a reset between two commands, log entry 12). -/
def Obligations.ResetErasesTheCommandBefore : Prop :=
  ∀ (s t : State) (d : Descriptor) (rest : List HostAction),
    s.host = .command d :: .reset :: rest → step s = .next t → step t = step { s with host := .reset :: rest }

/-! ## Faults (60_exceptions.md) -/

/-- From R106: while F = 1 every descriptor but the well-formed FCLR, legal or illegal, changes no state at all: the step only
takes it off the port. FCLR is executed, and the read port works as always. That a step takes the transaction out of `host`, and
records what the read port returns in `answers`, is the model's choice (log entries 1 and 3). -/
def Obligations.FaultedStateDropsCommands : Prop :=
  ∀ (s : State) (d : Descriptor) (rest : List HostAction), faultFlag s = true →
    (d ≠ 0x0900000000000000 → s.host = .command d :: rest → step s = .next { s with host := rest }) ∧
    (s.host = .command 0x0900000000000000 :: rest →
      step s = .next { s with host := rest, status := 0, err := 0, einfo := 0 }) ∧
    (∀ n : Fin 8, s.host = .read n :: rest →
      step s = .next { s with host := rest, answers := (n, readPort s n) :: s.answers })

/-- R105: a faulting command has done nothing: the state after it differs from the state before in the three fault registers
only, EINFO is its whole descriptor and ERR is one of the codes 1 to 6. -/
def Obligations.FaultsArePrecise : Prop :=
  ∀ (d : Descriptor) (s t : State), faultFlag s = false → acceptCommand d s = .next t → faultFlag t = true →
    t = { s with status := 1, err := t.err, einfo := d } ∧ 1 ≤ t.err.toNat ∧ t.err.toNat ≤ 6

/-- R102: which command can raise what. The spec marks R102 as derived from R53 and the commands' rules. -/
def Obligations.CausesOfEachCommand : Prop :=
  ∀ (d : Descriptor) (s t : State), faultFlag s = false → acceptCommand d s = .next t → faultFlag t = true →
    (∀ e, decode d = .error e → t.err = 1) ∧
    (∀ off w, decode d = .ok (.extract off w) → t.err = 2 ∨ t.err = 3) ∧
    (∀ off w val, decode d = .ok (.set off w val) → t.err = 2 ∨ t.err = 3) ∧
    (decode d ≠ .ok .unpack ∧ decode d ≠ .ok .wclr ∧ decode d ≠ .ok .fclr) ∧
    (decode d = .ok .pack → t.err = 4) ∧
    (∀ n, decode d = .ok (.lclr n) → t.err = 3) ∧
    (∀ b, decode d = .ok (.wpush b) → t.err = 5 ∨ t.err = 6) ∧
    (∀ idx, decode d = .ok (.wrd idx) → t.err = 3)

/-- R103: one cause is reported, the one of the lowest code: BAD_WIDTH before RANGE, DATA7 before WFULL, ILLEGAL_CMD before
all. -/
def Obligations.LowestCauseWins : Prop :=
  ∀ s : State, faultFlag s = false →
    (∀ off w, 32 < w.toNat → 8 * s.llen.toNat < off.toNat + w.toNat →
      ∃ t, exec (.extract off w) s = .next t ∧ t.err = 2) ∧
    (∀ off w val, 32 < w.toNat → 8 * s.llen.toNat < off.toNat + w.toNat →
      ∃ t, exec (.set off w val) s = .next t ∧ t.err = 2) ∧
    (∀ b, b.getLsbD 7 = true → s.wlen.toNat = 512 → ∃ t, exec (.wpush b) s = .next t ∧ t.err = 5) ∧
    (∀ d e, decode d = .error e → ∃ t, acceptCommand d s = .next t ∧ t.err = 1)

/-- R17: F goes from 1 to 0 only by FCLR and reset, from 0 to 1 only by a command that faults, and bits 7:1 of STATUS read 0. -/
def Obligations.FaultFlagChanges : Prop :=
  ∀ (a : HostAction) (s t : State), transact a s = .next t →
    (faultFlag s = true → faultFlag t = false → a = .reset ∨ a = .command 0x0900000000000000) ∧
    (faultFlag s = false → faultFlag t = true →
      ∃ d, a = .command d ∧ t = { s with status := 1, err := t.err, einfo := d }) ∧
    (readStatus t).toNat ≤ 1

/-! ## The bit accessor (40_bit_accessor.md) -/

/-- R70, R72: EXTRACT is `op = 0x01` with `val` zero. With F = 0, EXTRACT of a field inside the logical buffer writes RES with
the field, zero-extended, and nothing else; `w > 32` faults with BAD_WIDTH; else a field that passes `8 * LLEN` faults with
RANGE. Bits count as R31 counts them (the spec's decision D4, log entry 11). -/
def Obligations.ExtractReadsField : Prop :=
  ∀ (off : BitVec 16) (w : BitVec 8) (s : State), faultFlag s = false →
    (∀ d : Descriptor, decode d = .ok (.extract off w) ↔ d = descriptor 0x01 w off 0) ∧
    (s.Inv → w.toNat ≤ 32 → off.toNat + w.toNat ≤ 8 * s.llen.toNat →
      ∃ v : BitVec 32, exec (.extract off w) s = .next { s with res := v } ∧
        (∀ i, i < w.toNat → BitAt s.lbuf (off.toNat + i) (v.getLsbD i)) ∧
        (∀ i, w.toNat ≤ i → v.getLsbD i = false)) ∧
    (32 < w.toNat →
      exec (.extract off w) s = .next { s with status := 1, err := 2, einfo := descriptor 0x01 w off 0 }) ∧
    (w.toNat ≤ 32 → 8 * s.llen.toNat < off.toNat + w.toNat →
      exec (.extract off w) s = .next { s with status := 1, err := 3, einfo := descriptor 0x01 w off 0 })

/-- R71, R72: SET is `op = 0x02` with any fields. With F = 0, SET of a field inside the logical buffer gives the field's bits
the low `w` bits of `val`, leaves every other bit, every byte the field does not touch and every other register; the faults are
those of EXTRACT. Bits count as R31 counts them (the spec's decision D4, log entry 11). -/
def Obligations.SetWritesField : Prop :=
  ∀ (off : BitVec 16) (w : BitVec 8) (val : BitVec 32) (s : State), faultFlag s = false →
    (∀ d : Descriptor, decode d = .ok (.set off w val) ↔ d = descriptor 0x02 w off val) ∧
    (s.Inv → w.toNat ≤ 32 → off.toNat + w.toNat ≤ 8 * s.llen.toNat →
      ∃ m, exec (.set off w val) s = .next { s with lbuf := m } ∧
        (∀ i, i < w.toNat → BitAt m (off.toNat + i) (val.getLsbD i)) ∧
        (∀ a v, a < off.toNat ∨ off.toNat + w.toNat ≤ a → BitAt s.lbuf a v → BitAt m a v) ∧
        (∀ c, (∀ i, i < w.toNat → (off.toNat + i) / 8 ≠ c) → m.read c = s.lbuf.read c)) ∧
    (32 < w.toNat →
      exec (.set off w val) s = .next { s with status := 1, err := 2, einfo := descriptor 0x02 w off val }) ∧
    (w.toNat ≤ 32 → 8 * s.llen.toNat < off.toNat + w.toNat →
      exec (.set off w val) s = .next { s with status := 1, err := 3, einfo := descriptor 0x02 w off val })

/-- R56: `w = 0` is legal and still checks `off <= 8*LLEN`: EXTRACT writes 0 to RES, SET writes nothing; a `w` of 33 to 255 is a
legal encoding that faults with BAD_WIDTH. -/
def Obligations.WidthValues : Prop :=
  ∀ (off : BitVec 16) (w : BitVec 8) (val : BitVec 32) (s : State), faultFlag s = false →
    (s.LengthsLegal → off.toNat ≤ 8 * s.llen.toNat →
      exec (.extract off 0) s = .next { s with res := 0 } ∧ exec (.set off 0 val) s = .next s) ∧
    (8 * s.llen.toNat < off.toNat →
      exec (.extract off 0) s = .next { s with status := 1, err := 3, einfo := descriptor 0x01 0 off 0 } ∧
      exec (.set off 0 val) s = .next { s with status := 1, err := 3, einfo := descriptor 0x02 0 off val }) ∧
    (32 < w.toNat →
      decode (descriptor 0x01 w off 0) = .ok (.extract off w) ∧ decode (descriptor 0x02 w off val) = .ok (.set off w val) ∧
      exec (.extract off w) s = .next { s with status := 1, err := 2, einfo := descriptor 0x01 w off 0 } ∧
      exec (.set off w val) s = .next { s with status := 1, err := 2, einfo := descriptor 0x02 w off val })

/-- R73: after `SET off, w, val` then `EXTRACT off, w`, RES is `val mod 2^w`. -/
def Obligations.SetThenExtract : Prop :=
  ∀ (off : BitVec 16) (w : BitVec 8) (val : BitVec 32) (s : State), s.Inv → faultFlag s = false → w.toNat ≤ 32 →
    off.toNat + w.toNat ≤ 8 * s.llen.toNat →
    ∃ t u, exec (.set off w val) s = .next t ∧ exec (.extract off w) t = .next u ∧
      u.res.toNat = val.toNat % 2 ^ w.toNat

/-- R74: two SETs on disjoint ranges, an empty range being disjoint from every other, commute: both orders complete in the same
state. -/
def Obligations.DisjointSetsCommute : Prop :=
  ∀ (off off' : BitVec 16) (w w' : BitVec 8) (val val' : BitVec 32) (s : State), s.Inv → faultFlag s = false →
    w.toNat ≤ 32 → w'.toNat ≤ 32 →
    off.toNat + w.toNat ≤ 8 * s.llen.toNat → off'.toNat + w'.toNat ≤ 8 * s.llen.toNat →
    off.toNat + w.toNat ≤ off'.toNat ∨ off'.toNat + w'.toNat ≤ off.toNat ∨ w.toNat = 0 ∨ w'.toNat = 0 →
    ∃ t t' u, exec (.set off w val) s = .next t ∧ exec (.set off' w' val') t = .next u ∧
      exec (.set off' w' val') s = .next t' ∧ exec (.set off w val) t' = .next u

/-- R74: a SET on a range disjoint from an EXTRACT's range (an empty range is disjoint from every other) does not change that
EXTRACT's result. -/
def Obligations.DisjointSetKeepsExtract : Prop :=
  ∀ (off off' : BitVec 16) (w w' : BitVec 8) (val : BitVec 32) (s : State), s.Inv → faultFlag s = false →
    w.toNat ≤ 32 → w'.toNat ≤ 32 →
    off.toNat + w.toNat ≤ 8 * s.llen.toNat → off'.toNat + w'.toNat ≤ 8 * s.llen.toNat →
    off.toNat + w.toNat ≤ off'.toNat ∨ off'.toNat + w'.toNat ≤ off.toNat ∨ w.toNat = 0 ∨ w'.toNat = 0 →
    ∃ t u u', exec (.set off w val) s = .next t ∧ exec (.extract off' w') s = .next u ∧
      exec (.extract off' w') t = .next u' ∧ u'.res = u.res

/-- R71, R75: SET uses the low `w` bits of `val` only. -/
def Obligations.SetIgnoresHighBits : Prop :=
  ∀ (off : BitVec 16) (w : BitVec 8) (val val' : BitVec 32) (s : State), w.toNat ≤ 32 →
    off.toNat + w.toNat ≤ 8 * s.llen.toNat → val.toNat % 2 ^ w.toNat = val'.toNat % 2 ^ w.toNat →
    exec (.set off w val) s = exec (.set off w val') s

/-- R32: a byte-aligned field of `n` bytes, `n` up to 4, is read in little-endian byte order. The spec marks R32 as derived from
R31. -/
def Obligations.AlignedFieldsAreLittleEndian : Prop :=
  ∀ (off : BitVec 16) (w : BitVec 8) (i n : Nat) (b : Nat → Byte) (s : State), s.Inv → faultFlag s = false → n ≤ 4 →
    off.toNat = 8 * i → w.toNat = 8 * n → i + n ≤ s.llen.toNat → (∀ j, j < n → s.lbuf.read (i + j) = some (b j)) →
    ∃ v : BitVec 32, exec (.extract off w) s = .next { s with res := v } ∧
      v.toNat = ((List.range n).map (fun j => (b j).toNat * 256 ^ j)).sum

/-- R76: the byte-window form. MemRead is the window of five bytes shifted and cut; after MemWrite each byte of the window below
LLEN is the corresponding byte of the masked window. The spec marks R76 as derived from R31, R33 and R34. -/
def Obligations.WindowForm : Prop :=
  ∀ (m : Memory 8) (len k w : Nat) (val : BitVec 32), w ≤ 32 → k + w ≤ 8 * len →
    let byte : Nat → Nat := fun i => if i < len then (m.at i).toNat else 0
    let win : Nat := byte (k / 8) + byte (k / 8 + 1) * 2 ^ 8 + byte (k / 8 + 2) * 2 ^ 16 + byte (k / 8 + 3) * 2 ^ 24 +
      byte (k / 8 + 4) * 2 ^ 32
    let mask : BitVec 40 := BitVec.ofNat 40 ((2 ^ w - 1) * 2 ^ (k % 8))
    let win' : BitVec 40 := (BitVec.ofNat 40 win &&& ~~~mask) ||| BitVec.ofNat 40 ((val.toNat % 2 ^ w) * 2 ^ (k % 8))
    memRead m k w = win / 2 ^ (k % 8) % 2 ^ w ∧
    ∀ j, j < 5 → k / 8 + j < len → (memWrite m k val w).at (k / 8 + j) = win'.extractLsb' (8 * j) 8

/-! ## The packer (41_packer.md) -/

/-- R80: UNPACK is the one descriptor 0x0300000000000000. With F = 0, it writes the bytes of every full group and of the partial
one, sets LLEN to their number, and changes nothing else. The placement is R82's (the spec's decision D5, log entry 11). -/
def Obligations.UnpackResult : Prop :=
  ∀ s : State, s.Inv → faultFlag s = false →
    let n := s.wlen.toNat
    let len := 7 * (n / 8) + (if 2 ≤ n % 8 then n % 8 - 1 else 0)
    (∀ d : Descriptor, decode d = .ok .unpack ↔ d = 0x0300000000000000) ∧
    ∃ m, exec .unpack s = .next { s with lbuf := m, llen := BitVec.ofNat 16 len } ∧
      (∀ g j, g < n / 8 → j < 7 → ∃ p q, s.wbuf.read (8 * g + j) = some p ∧ s.wbuf.read (8 * g + j + 1) = some q ∧
        m.read (7 * g + j) = some (BitVec.ofNat 8 (((p.toNat >>> j) ||| (q.toNat <<< (7 - j))) &&& 0xFF))) ∧
      (∀ j, 2 ≤ n % 8 → j + 2 ≤ n % 8 → ∃ p q, s.wbuf.read (8 * (n / 8) + j) = some p ∧
        s.wbuf.read (8 * (n / 8) + j + 1) = some q ∧
        m.read (7 * (n / 8) + j) = some (BitVec.ofNat 8 (((p.toNat >>> j) ||| (q.toNat <<< (7 - j))) &&& 0xFF))) ∧
      (∀ a, len ≤ a → m.read a = s.lbuf.read a)

/-- R81: PACK is the one descriptor 0x0400000000000000. With F = 0, PACK of a logical length that is a multiple of 7 writes the
cells of every group, sets WLEN to their number and changes nothing else; any other length faults with PACK_LEN. The placement
is R82's (the spec's decision D5, log entry 11). -/
def Obligations.PackResult : Prop :=
  ∀ s : State, faultFlag s = false →
    (∀ d : Descriptor, decode d = .ok .pack ↔ d = 0x0400000000000000) ∧
    (s.Inv → s.llen.toNat % 7 = 0 →
      ∃ m, exec .pack s = .next { s with wbuf := m, wlen := BitVec.ofNat 16 (8 * (s.llen.toNat / 7)) } ∧
        (∀ g, g < s.llen.toNat / 7 →
          (∃ u, s.lbuf.read (7 * g) = some u ∧ m.read (8 * g) = some (BitVec.ofNat 7 (u.toNat &&& 0x7F))) ∧
          (∀ k, 1 ≤ k → k ≤ 6 → ∃ t u, s.lbuf.read (7 * g + k - 1) = some t ∧ s.lbuf.read (7 * g + k) = some u ∧
            m.read (8 * g + k) = some (BitVec.ofNat 7 (((t.toNat >>> (8 - k)) ||| (u.toNat <<< k)) &&& 0x7F))) ∧
          (∃ u, s.lbuf.read (7 * g + 6) = some u ∧ m.read (8 * g + 7) = some (BitVec.ofNat 7 (u.toNat >>> 1)))) ∧
        (∀ a, 8 * (s.llen.toNat / 7) ≤ a → m.read a = s.wbuf.read a)) ∧
    (s.llen.toNat % 7 ≠ 0 →
      exec .pack s = .next { s with status := 1, err := 4, einfo := descriptor 0x04 0 0 0 })

/-- R84: the length functions: their bounds, and how they undo each other. The spec marks the bounds as derived from R5. -/
def Obligations.LengthFunctions : Prop :=
  (∀ n, ulen n = 7 * (n / 8) + (if 2 ≤ n % 8 then n % 8 - 1 else 0)) ∧
  (∀ m, m % 7 = 0 → plen m = 8 * (m / 7)) ∧
  (∀ n, 8 * ulen n ≤ 7 * n) ∧
  (∀ n, n ≤ 512 → ulen n ≤ 448) ∧
  (∀ m, m % 7 = 0 → m ≤ 448 → plen m ≤ 512) ∧
  (∀ m, m % 7 = 0 → ulen (plen m) = m) ∧
  (∀ n, ulen n % 7 = 0 → plen (ulen n) = n → n % 8 = 0) ∧
  (List.range 17).map ulen = [0, 0, 1, 2, 3, 4, 5, 6, 7, 7, 8, 9, 10, 11, 12, 13, 14]

/-- R82, R83: in one group, bit `i` of unpacked byte `j` is payload bit `8*j + i` of the wire group, and bit `c` of packed cell
`a` is bit `7*a + c` of the logical group. The spec marks R83 as derived from R82. -/
def Obligations.GroupMapIsBitStream : Prop :=
  (∀ (p : Nat → Cell7) (j i : Nat), j < 7 → i < 8 →
    (unpackByte (p j) (p (j + 1)) j).getLsbD i = (p ((8 * j + i) / 7)).getLsbD ((8 * j + i) % 7)) ∧
  (∀ (u : Nat → Byte) (a c : Nat), a < 8 → c < 7 →
    (packCell u a).getLsbD c = (u ((7 * a + c) / 8)).getLsbD ((7 * a + c) % 8))

/-- R83: logical bit address `56*g + t` after UNPACK is payload bit `t` of wire group `g`: bit address `a` of LBUF is bit `a mod
7` of cell `a div 7`, in the partial group too, up to the new LLEN, which is `ulen` of WLEN. The spec marks R83 as derived from
R82. -/
def Obligations.UnpackIsBitStream : Prop :=
  ∀ s : State, s.Inv → faultFlag s = false →
    ∃ t, exec .unpack s = .next t ∧ t.llen.toNat = ulen s.wlen.toNat ∧
      ∀ a, a < 8 * t.llen.toNat → ∃ c, s.wbuf.read (a / 7) = some c ∧ BitAt t.lbuf a (c.getLsbD (a % 7))

/-- R85: from a logical length that is a multiple of 7, PACK then UNPACK leaves LLEN and the logical buffer as they were, and
`WLEN = 8*LLEN/7`. -/
def Obligations.PackUnpackRoundTrip : Prop :=
  ∀ s : State, s.Inv → faultFlag s = false → s.llen.toNat % 7 = 0 →
    ∃ t u, exec .pack s = .next t ∧ exec .unpack t = .next u ∧ u.llen = s.llen ∧
      (∀ i, i < s.llen.toNat → u.lbuf.read i = s.lbuf.read i) ∧ u.wlen.toNat = 8 * s.llen.toNat / 7

/-- R86: from a wire length that is a multiple of 8, UNPACK then PACK leaves WLEN and the wire buffer as they were. -/
def Obligations.UnpackPackRoundTrip : Prop :=
  ∀ s : State, s.Inv → faultFlag s = false → s.wlen.toNat % 8 = 0 →
    ∃ t u, exec .unpack s = .next t ∧ exec .pack t = .next u ∧ u.wlen = s.wlen ∧
      (∀ i, i < s.wlen.toNat → u.wbuf.read i = s.wbuf.read i)

/-- R87: when `WLEN mod 8 = T` in 1 to 7, UNPACK ignores the high `8 - T` bits of the last cell: two wire buffers that differ
there only unpack to the same logical buffer. The spec marks R87 as derived from R80. -/
def Obligations.PartialGroupIgnoresHighBits : Prop :=
  ∀ s s' : State, s.Inv → s'.Inv → faultFlag s = false → faultFlag s' = false → s.wlen = s'.wlen → 1 ≤ s.wlen.toNat % 8 →
    (∀ i, i + 1 < s.wlen.toNat → s.wbuf.read i = s'.wbuf.read i) →
    (∀ p p', s.wbuf.read (s.wlen.toNat - 1) = some p → s'.wbuf.read (s.wlen.toNat - 1) = some p' →
      ∀ c, c < s.wlen.toNat % 8 - 1 → p.getLsbD c = p'.getLsbD c) →
    ∃ t t', exec .unpack s = .next t ∧ exec .unpack s' = .next t' ∧ t.llen = t'.llen ∧
      ∀ i, i < t.llen.toNat → t.lbuf.read i = t'.lbuf.read i

/-- R87: UNPACK then PACK does not restore a wire buffer with a partial group of `T` cells: for `T` in 2 to 7 PACK faults with
PACK_LEN; for `T = 1` it gives `8*G` cells, one fewer than there were. The spec marks R87 as derived from R80. -/
def Obligations.PartialGroupIsNotRestored : Prop :=
  ∀ s : State, s.Inv → faultFlag s = false →
    (2 ≤ s.wlen.toNat % 8 → ∃ t, exec .unpack s = .next t ∧
      exec .pack t = .next { t with status := 1, err := 4, einfo := descriptor 0x04 0 0 0 }) ∧
    (s.wlen.toNat % 8 = 1 → ∃ t u, exec .unpack s = .next t ∧ exec .pack t = .next u ∧
      u.wlen.toNat = 8 * (s.wlen.toNat / 8) ∧ u.wlen.toNat + 1 = s.wlen.toNat)

/-- R88: `m` bytes with `R = m mod 7` in 1 to 6, padded with zero bytes to `7*(G+1)` and packed: the cells from `8*G + R + 1` on
are 0, and a wire buffer of exactly the cells before them unpacks to exactly the `m` bytes. The spec marks R88 as derived from
R80, R81 and R82. -/
def Obligations.PaddedPackUnpacksToTheBytes : Prop :=
  ∀ (s : State) (m : Nat), s.Inv → faultFlag s = false → 1 ≤ m % 7 → s.llen.toNat = 7 * (m / 7 + 1) →
    (∀ i, m ≤ i → i < s.llen.toNat → s.lbuf.read i = some 0) →
    ∃ t, exec .pack s = .next t ∧ t.wlen.toNat = 8 * (m / 7 + 1) ∧
      (∀ i, 8 * (m / 7) + m % 7 + 1 ≤ i → i < t.wlen.toNat → t.wbuf.read i = some 0) ∧
      (∀ r : State, r.Inv → faultFlag r = false → r.wlen.toNat = 8 * (m / 7) + m % 7 + 1 →
        (∀ i, i < r.wlen.toNat → r.wbuf.read i = t.wbuf.read i) →
        ∃ u, exec .unpack r = .next u ∧ u.llen.toNat = m ∧ ∀ i, i < m → u.lbuf.read i = s.lbuf.read i)

/-! ## Buffer access and system commands (42_buffer_and_system.md) -/

/-- R90: LCLR is `op = 0x05` with `w` and `val` zero. With F = 0, it makes the logical buffer `n` zero bytes and changes nothing
else; `n > 448` faults with RANGE. -/
def Obligations.LclrResult : Prop :=
  ∀ (n : BitVec 16) (s : State), faultFlag s = false →
    (∀ d : Descriptor, decode d = .ok (.lclr n) ↔ d = descriptor 0x05 0 n 0) ∧
    (n.toNat ≤ 448 →
      ∃ m, exec (.lclr n) s = .next { s with lbuf := m, llen := n } ∧ (∀ i, i < n.toNat → m.read i = some 0) ∧
        (∀ a, n.toNat ≤ a → m.read a = s.lbuf.read a)) ∧
    (448 < n.toNat → exec (.lclr n) s = .next { s with status := 1, err := 3, einfo := descriptor 0x05 0 n 0 })

/-- R91: WCLR is the one descriptor 0x0600000000000000. With F = 0, it makes WLEN 0 and changes nothing else. -/
def Obligations.WclrResult : Prop :=
  (∀ d : Descriptor, decode d = .ok .wclr ↔ d = 0x0600000000000000) ∧
  (∀ s : State, faultFlag s = false → exec .wclr s = .next { s with wlen := 0 })

/-- R92: WPUSH is `op = 0x07` with all but `val[7:0]` zero. With F = 0, WPUSH of a byte below 0x80 into a buffer that is not
full appends it and changes nothing else; a byte with bit 7 set faults with DATA7; else a full buffer faults with WFULL. -/
def Obligations.WpushResult : Prop :=
  ∀ (b : BitVec 8) (s : State), faultFlag s = false →
    (∀ d : Descriptor, decode d = .ok (.wpush b) ↔ d = descriptor 0x07 0 0 (b.setWidth 32)) ∧
    (b.getLsbD 7 = false → s.wlen.toNat < 512 →
      ∃ m, exec (.wpush b) s = .next { s with wbuf := m, wlen := s.wlen + 1 } ∧
        m.read s.wlen.toNat = some (b.extractLsb' 0 7) ∧
        (∀ a, a ≠ s.wlen.toNat → m.read a = s.wbuf.read a)) ∧
    (b.getLsbD 7 = true →
      exec (.wpush b) s = .next { s with status := 1, err := 5, einfo := descriptor 0x07 0 0 (b.setWidth 32) }) ∧
    (b.getLsbD 7 = false → s.wlen.toNat = 512 →
      exec (.wpush b) s = .next { s with status := 1, err := 6, einfo := descriptor 0x07 0 0 (b.setWidth 32) })

/-- R93: WRD is `op = 0x08` with `w` and `val` zero. With F = 0, WRD of a cell of the wire buffer writes it, zero-extended, into
RES and changes nothing else; `idx >= WLEN` faults with RANGE. -/
def Obligations.WrdResult : Prop :=
  ∀ (idx : BitVec 16) (s : State), faultFlag s = false →
    (∀ d : Descriptor, decode d = .ok (.wrd idx) ↔ d = descriptor 0x08 0 idx 0) ∧
    (s.Inv → idx.toNat < s.wlen.toNat →
      ∃ c, s.wbuf.read idx.toNat = some c ∧ exec (.wrd idx) s = .next { s with res := c.setWidth 32 }) ∧
    (s.wlen.toNat ≤ idx.toNat →
      exec (.wrd idx) s = .next { s with status := 1, err := 3, einfo := descriptor 0x08 0 idx 0 })

/-- R94: FCLR is the one descriptor 0x0900000000000000. It clears F, ERR and EINFO and changes nothing else, whatever F is; in a
legal state with F = 0 it changes nothing at all; it is the only command executed while F = 1. A descriptor with `op = 0x09` and
any other bit set faults with ILLEGAL_CMD while F = 0 and is dropped while F = 1. -/
def Obligations.FclrResult : Prop :=
  (∀ d : Descriptor, decode d = .ok .fclr ↔ d = 0x0900000000000000) ∧
  (∀ s : State, exec .fclr s = .next { s with status := 0, err := 0, einfo := 0 }) ∧
  (∀ s : State, s.Inv → faultFlag s = false → exec .fclr s = .next s) ∧
  (∀ (i : Instr) (s : State), i ≠ .fclr → faultFlag s = true → exec i s = .next s) ∧
  (∀ s : State, acceptCommand 0x0900000000000000 s = .next { s with status := 0, err := 0, einfo := 0 }) ∧
  (∀ (d : Descriptor) (s : State), descOp d = 0x09 → d ≠ 0x0900000000000000 →
    (faultFlag s = false → acceptCommand d s = .next { s with status := 1, err := 1, einfo := d }) ∧
    (faultFlag s = true → acceptCommand d s = .next s))

/-! ## The whole machine -/

/-- R10 to R13, R17 to R19: which commands can change which register or buffer. STATUS, ERR and EINFO change by FCLR and by a
command that faults only. No command touches the host's side, which is the model's own (log entries 1 and 3). -/
def Obligations.WritersOfEachRegister : Prop :=
  ∀ (i : Instr) (s t : State), exec i s = .next t →
    (t.res ≠ s.res → (∃ off w, i = .extract off w) ∨ ∃ idx, i = .wrd idx) ∧
    (t.llen ≠ s.llen → i = .unpack ∨ ∃ n, i = .lclr n) ∧
    (t.wlen ≠ s.wlen → i = .pack ∨ i = .wclr ∨ ∃ b, i = .wpush b) ∧
    (t.lbuf ≠ s.lbuf → (∃ off w val, i = .set off w val) ∨ i = .unpack ∨ ∃ n, i = .lclr n) ∧
    (t.wbuf ≠ s.wbuf → i = .pack ∨ ∃ b, i = .wpush b) ∧
    (t.status ≠ s.status ∨ t.err ≠ s.err ∨ t.einfo ≠ s.einfo →
      i = .fclr ∨ (faultFlag s = false ∧ faultFlag t = true)) ∧
    t.host = s.host ∧ t.answers = s.answers

/-- R21: the invariant holds in the reset state, whatever the host will do. The spec marks R21 as derived from R24 and the
commands' rules. -/
def Obligations.ResetHasInvariant : Prop := ∀ h : List HostAction, (State.reset.withHost h).Inv

/-- R21: every step keeps the invariant. The spec marks R21 as derived from R24 and the commands' rules; that the buffers are
canonical and written below their lengths is the model's own (log entry 4). -/
def Obligations.StepKeepsInvariant : Prop := ∀ s t : State, s.Inv → step s = .next t → t.Inv

/-- R112: from every state with the invariant the step has a next state: no stuck state, no stop. The spec marks R112 as derived
from R100 to R107 and R61. -/
def Obligations.StepNeverStops : Prop := ∀ s : State, s.Inv → ∃ t, step s = .next t

/-- R21, R112: every state a run from reset reaches, whatever the host does, has the invariant, and the run goes on. The spec
marks both as derived. -/
def Obligations.ReachableStatesAreLegal : Prop := ∀ s : State, Reachable s → s.Inv ∧ ∃ t, step s = .next t

/-- R20: cells at or past the lengths never influence anything: two states that differ at most there step alike, to two states
that again differ at most there. The spec marks R20 as derived from R12 to R15 and the commands' rules. -/
def Obligations.CellsPastLengthsUnobservable : Prop :=
  ∀ s s' : State, s.SameVisible s' →
    (∀ t, step s = .next t → ∃ t', step s' = .next t' ∧ t.SameVisible t') ∧
    (∀ f, step s = .fault f → step s' = .fault f)

/-- R122: from the reset state the commands that complete without a fault are exactly these. The spec marks R122 as derived from
R24 and the commands' rules. -/
def Obligations.CommandsThatCompleteFromReset : Prop :=
  ∀ d : Descriptor, (∃ t, acceptCommand d State.reset = .next t ∧ faultFlag t = false) ↔
    (∃ n : BitVec 16, n.toNat ≤ 448 ∧ d = descriptor 0x05 0 n 0) ∨
    (∃ b : BitVec 8, b.toNat < 0x80 ∧ d = descriptor 0x07 0 0 (b.setWidth 32)) ∨
    d = 0x0600000000000000 ∨ d = 0x0900000000000000 ∨ d = 0x0300000000000000 ∨ d = 0x0400000000000000 ∨
    d = descriptor 0x01 0 0 0 ∨ ∃ v : BitVec 32, d = descriptor 0x02 0 0 v

/-! ## The listing syntax (R58, R59) -/

/-- R58: the descriptor of each listing line; operands that do not fit their fields are rejected. -/
def Obligations.ListingDescriptors : Prop :=
  (∀ off w, off ≤ 65535 → w ≤ 255 → ∃ d, assembleLine (.command (.extract off w)) = some [d] ∧
    d.toNat = 0x01 * 2 ^ 56 + w * 2 ^ 48 + off * 2 ^ 32) ∧
  (∀ off w val, off ≤ 65535 → w ≤ 255 → val ≤ 2 ^ 32 - 1 → ∃ d, assembleLine (.command (.set off w val)) = some [d] ∧
    d.toNat = 0x02 * 2 ^ 56 + w * 2 ^ 48 + off * 2 ^ 32 + val) ∧
  assembleLine (.command .unpack) = some [0x0300000000000000] ∧
  assembleLine (.command .pack) = some [0x0400000000000000] ∧
  (∀ n, n ≤ 65535 → ∃ d, assembleLine (.command (.lclr n)) = some [d] ∧ d.toNat = 0x05 * 2 ^ 56 + n * 2 ^ 32) ∧
  assembleLine (.command .wclr) = some [0x0600000000000000] ∧
  (∀ b, b ≤ 255 → ∃ d, assembleLine (.command (.wpush b)) = some [d] ∧ d.toNat = 0x07 * 2 ^ 56 + b) ∧
  (∀ idx, idx ≤ 65535 → ∃ d, assembleLine (.command (.wrd idx)) = some [d] ∧ d.toNat = 0x08 * 2 ^ 56 + idx * 2 ^ 32) ∧
  assembleLine (.command .fclr) = some [0x0900000000000000] ∧
  (∀ off w, 65535 < off ∨ 255 < w → assembleLine (.command (.extract off w)) = none) ∧
  (∀ off w val, 65535 < off ∨ 255 < w ∨ 2 ^ 32 - 1 < val → assembleLine (.command (.set off w val)) = none) ∧
  (∀ n, 65535 < n → assembleLine (.command (.lclr n)) = none ∧ assembleLine (.command (.wrd n)) = none) ∧
  (∀ b, 255 < b → assembleLine (.command (.wpush b)) = none)

/-- R59: `LRDB i` assembles to one descriptor, which reads byte `i` of the logical buffer into RES; `LWRB i, b` to one, which
makes byte `i` of the logical buffer `b` and leaves every other byte. -/
def Obligations.ByteAccessPseudoCommands : Prop :=
  ∀ (s : State) (i b : Nat), s.Inv → faultFlag s = false → i < s.llen.toNat → b ≤ 255 →
    (∃ d x, assembleLine (.lrdb i) = some [d] ∧ s.lbuf.read i = some x ∧
      acceptCommand d s = .next { s with res := x.setWidth 32 }) ∧
    (∃ d m, assembleLine (.lwrb i b) = some [d] ∧ acceptCommand d s = .next { s with lbuf := m } ∧
      m.read i = some (BitVec.ofNat 8 b) ∧ ∀ c, c ≠ i → m.read c = s.lbuf.read c)
end

