-- ==== Sys2Proof/Laws/Memory.lean ====
section
/-! SUPPORT. What the three memory operations do: read after write, the other indices, the canonical form, which indices are listed. -/

namespace Sys2Proof.Machine

variable {w : Nat} (m : Memory w)

/-! ## `Memory.read` -/

@[simp] theorem Memory.read_nil (a : Nat) : Memory.read ([] : Memory w) a = none := rfl

theorem Memory.read_cons (b : Nat) (v : BitVec w) (a : Nat) :
    Memory.read ((b, v) :: m) a = if a = b then some v else m.read a := rfl

/-- An index that reads a value is listed with it. -/
theorem Memory.mem_of_read {a : Nat} {v : BitVec w} (h : m.read a = some v) : (a, v) ∈ m := by
  induction m with
  | nil => cases h
  | cons c rest ih =>
    obtain ⟨b, u⟩ := c
    rw [Memory.read_cons] at h
    split at h
    · next e => cases h; simp [e]
    · exact List.mem_cons_of_mem _ (ih h)

/-- Where every listed index is below `n`, an index at or past `n` has no value. -/
theorem Memory.read_of_below {n a : Nat} (h : m.below n) (ha : n ≤ a) : m.read a = none := by
  cases hr : m.read a with
  | none => rfl
  | some v => exact absurd (h _ (m.mem_of_read hr)) (by simpa using ha)

/-- In canonical form, an index at or below the first listed one has no value in the rest. -/
theorem Memory.read_of_le_head {b a : Nat} {u : BitVec w} (h : Memory.wf ((b, u) :: m)) (ha : a ≤ b) : m.read a = none := by
  cases hr : m.read a with
  | none => rfl
  | some v =>
    have := (List.pairwise_cons.mp h).1 _ (m.mem_of_read hr)
    simp only at this
    omega

/-- Two memories in canonical form that read the same everywhere are equal as data. -/
theorem Memory.ext_of_read {m m' : Memory w} (h : m.wf) (h' : m'.wf) (hr : ∀ a, m.read a = m'.read a) : m = m' := by
  induction m generalizing m' with
  | nil =>
    cases m' with
    | nil => rfl
    | cons e' r' =>
      obtain ⟨b', v'⟩ := e'
      simpa [Memory.read_cons] using hr b'
  | cons e r ih =>
    obtain ⟨b, v⟩ := e
    cases m' with
    | nil => simpa [Memory.read_cons] using hr b
    | cons e' r' =>
      obtain ⟨b', v'⟩ := e'
      have hb : b = b' := by
        rcases Nat.lt_trichotomy b b' with hlt | heq | hgt
        · have := hr b
          rw [Memory.read_cons, Memory.read_cons, if_pos rfl, if_neg (by omega), Memory.read_of_le_head r' h' (by omega)] at this
          cases this
        · exact heq
        · have := hr b'
          rw [Memory.read_cons, Memory.read_cons, if_pos rfl, if_neg (by omega), Memory.read_of_le_head r h (by omega)] at this
          cases this
      subst hb
      have hv : v = v' := by simpa [Memory.read_cons] using hr b
      subst hv
      rw [ih (List.pairwise_cons.mp h).2 (List.pairwise_cons.mp h').2 (fun a => ?_)]
      by_cases ha : a = b
      · subst ha
        rw [Memory.read_of_le_head r h (Nat.le_refl _), Memory.read_of_le_head r' h' (Nat.le_refl _)]
      · simpa [Memory.read_cons, ha] using hr a

/-! ## `Memory.write` -/

/-- Read after write, at the same index and at any other. -/
theorem Memory.read_write (a c : Nat) (v : BitVec w) :
    (m.write a v).read c = if c = a then some v else m.read c := by
  induction m with
  | nil => simp [Memory.write, Memory.read_cons]
  | cons e rest ih =>
    obtain ⟨b, u⟩ := e
    simp only [Memory.write]
    split
    · simp [Memory.read_cons]
    · split
      · next e => subst e; simp only [Memory.read_cons]; split <;> rfl
      · next hne =>
        simp only [Memory.read_cons, ih]
        by_cases hcb : c = b
        · subst hcb; simp [Ne.symm hne]
        · simp [hcb]

theorem Memory.read_write_same (a : Nat) (v : BitVec w) : (m.write a v).read a = some v := by
  simp [Memory.read_write]

theorem Memory.read_write_other {a c : Nat} (v : BitVec w) (h : c ≠ a) : (m.write a v).read c = m.read c := by
  simp [Memory.read_write, h]

/-- What a write lists: the pair written, and pairs listed before. -/
theorem Memory.mem_write {a : Nat} {v : BitVec w} {c : Nat × BitVec w} (h : c ∈ m.write a v) : c = (a, v) ∨ c ∈ m := by
  induction m with
  | nil => simpa [Memory.write] using h
  | cons e rest ih =>
    obtain ⟨b, u⟩ := e
    simp only [Memory.write] at h
    split at h
    · simpa using h
    · split at h
      · rcases List.mem_cons.mp h with h | h
        · exact .inl h
        · exact .inr (List.mem_cons_of_mem _ h)
      · rcases List.mem_cons.mp h with h | h
        · exact .inr (by simp [h])
        · rcases ih h with h | h
          · exact .inl h
          · exact .inr (List.mem_cons_of_mem _ h)

/-- A write keeps the canonical form. -/
theorem Memory.wf_write (a : Nat) (v : BitVec w) (h : m.wf) : (m.write a v).wf := by
  induction m with
  | nil => simp [Memory.write]
  | cons e rest ih =>
    obtain ⟨b, u⟩ := e
    obtain ⟨hb, hrest⟩ := List.pairwise_cons.mp h
    simp only [Memory.write]
    split
    · next hab =>
      refine List.pairwise_cons.mpr ⟨fun c hc => ?_, h⟩
      rcases List.mem_cons.mp hc with rfl | hc
      · exact hab
      · exact Nat.lt_trans hab (hb c hc)
    · next hab =>
      split
      · next e => subst e; exact List.pairwise_cons.mpr ⟨hb, hrest⟩
      · next hne =>
        refine List.pairwise_cons.mpr ⟨fun c hc => ?_, ih hrest⟩
        rcases Memory.mem_write _ hc with rfl | hc
        · simp only; omega
        · exact hb c hc

/-- A write below `n` lists nothing at or past `n`. -/
theorem Memory.below_write {n a : Nat} (v : BitVec w) (h : m.below n) (ha : a < n) : (m.write a v).below n := by
  intro c hc
  rcases Memory.mem_write _ hc with rfl | hc
  · exact ha
  · exact h c hc

/-! ## `Memory.fill` -/

theorem Memory.read_append (m₁ m₂ : Memory w) (a : Nat) : (m₁ ++ m₂).read a = (m₁.read a).or (m₂.read a) := by
  induction m₁ with
  | nil => simp
  | cons e rest ih =>
    obtain ⟨b, u⟩ := e
    simp only [List.cons_append, Memory.read_cons]
    split
    · simp
    · exact ih

theorem Memory.read_filter (p : Nat → Bool) (a : Nat) :
    Memory.read (m.filter (fun c => p c.1)) a = if p a then m.read a else none := by
  induction m with
  | nil => simp
  | cons e rest ih =>
    obtain ⟨b, u⟩ := e
    by_cases hb : p b
    · simp only [List.filter_cons, hb, if_true, Memory.read_cons, ih]
      split
      · next e => simp [e, hb]
      · rfl
    · simp only [List.filter_cons, hb, Memory.read_cons]
      rw [if_neg (by simp), ih]
      split
      · next ha =>
        by_cases e : a = b
        · subst e; exact absurd ha hb
        · rw [if_neg e]
      · rfl

theorem Memory.read_map_of_mem (f : Nat → BitVec w) (l : List Nat) (a : Nat) :
    Memory.read (l.map (fun i => (i, f i))) a = if a ∈ l then some (f a) else none := by
  induction l with
  | nil => simp
  | cons b rest ih =>
    simp only [List.map_cons, Memory.read_cons, ih, List.mem_cons]
    by_cases e : a = b
    · subst e; simp
    · simp [e]

/-- What every index reads after a fill. -/
theorem Memory.read_fill (n : Nat) (f : Nat → BitVec w) (a : Nat) :
    (m.fill n f).read a = if a < n then some (f a) else m.read a := by
  rw [Memory.fill, Memory.read_append, Memory.read_map_of_mem,
    Memory.read_filter m (fun i => decide (n ≤ i))]
  by_cases h : a < n
  · simp [h]
  · simp [h, Nat.le_of_not_lt h]

/-- What a fill lists: indices below `n`, and pairs listed before. -/
theorem Memory.mem_fill {n : Nat} {f : Nat → BitVec w} {c : Nat × BitVec w} (h : c ∈ m.fill n f) : c.1 < n ∨ c ∈ m := by
  rcases List.mem_append.mp h with h | h
  · obtain ⟨i, hi, rfl⟩ := List.mem_map.mp h
    exact .inl (List.mem_range.mp hi)
  · exact .inr (List.mem_filter.mp h).1

/-- A fill keeps the canonical form. -/
theorem Memory.wf_fill (n : Nat) (f : Nat → BitVec w) (h : m.wf) : (m.fill n f).wf := by
  refine List.pairwise_append.mpr ⟨?_, h.sublist List.filter_sublist, ?_⟩
  · exact List.pairwise_map.mpr List.pairwise_lt_range
  · intro c hc d hd
    obtain ⟨i, hi, rfl⟩ := List.mem_map.mp hc
    have hd := (List.mem_filter.mp hd).2
    have hi := List.mem_range.mp hi
    simp only [decide_eq_true_eq] at hd
    exact Nat.lt_of_lt_of_le hi hd

/-- A fill of at most `k` indices lists nothing at or past `k`. -/
theorem Memory.below_fill {n k : Nat} (f : Nat → BitVec w) (h : m.below k) (hn : n ≤ k) : (m.fill n f).below k := by
  intro c hc
  rcases Memory.mem_fill _ hc with hc | hc
  · exact Nat.lt_of_lt_of_le hc hn
  · exact h c hc

/-- After a fill of `n` indices each of them has a value. -/
theorem Memory.holds_fill (n : Nat) (f : Nat → BitVec w) : (m.fill n f).holds n := by
  intro i hi
  simp [Memory.read_fill, hi]

/-! ## `Memory.at` -/

theorem Memory.at_of_read {a : Nat} {v : BitVec w} (h : m.read a = some v) : m.at a = v := by simp [Memory.at, h]

/-- Where an index has a value, `at` is that value. -/
theorem Memory.read_eq_at {a : Nat} (h : (m.read a).isSome) : m.read a = some (m.at a) := by
  obtain ⟨v, hv⟩ := Option.isSome_iff_exists.mp h
  rw [hv, m.at_of_read hv]

theorem Memory.at_write (a c : Nat) (v : BitVec w) : (m.write a v).at c = if c = a then v else m.at c := by
  simp only [Memory.at, Memory.read_write]
  split <;> rfl

theorem Memory.at_fill (n : Nat) (f : Nat → BitVec w) (a : Nat) : (m.fill n f).at a = if a < n then f a else m.at a := by
  simp only [Memory.at, Memory.read_fill]
  split <;> rfl

end Sys2Proof.Machine
end

