-- ==== Sys2Proof/Laws/Bits.lean ====
section
/-! SUPPORT. The bit primitives of the logical buffer: what MemRead reads and what MemWrite changes (R31, R33, R34). -/

namespace Sys2Proof.Machine

/-! ## Bits of bytes -/

/-- A bit address names byte `k / 8`, bit `k % 8`; two addresses with the same byte and bit are the same (R31). -/
theorem bitAddress_ext {a b : Nat} (hq : a / 8 = b / 8) (hr : a % 8 = b % 8) : a = b := by
  omega

/-- Clearing and setting one bit of a byte (R34): the target bit, and every other one. -/
theorem getLsbD_setBit (x : BitVec 8) (b i : Nat) (bit : Bool) (hb : b < 8) :
    ((x &&& ~~~(1#8 <<< b)) ||| ((BitVec.ofBool bit).setWidth 8 <<< b)).getLsbD i
      = if i = b then bit else x.getLsbD i := by
  by_cases hi : i < 8
  · rcases Nat.lt_trichotomy i b with h | h | h
    · simp [hi, h, Nat.ne_of_lt h]
    · subst h; simp [hi]
    · have h0 : i - b ≠ 0 := by omega
      have h1 : ¬ i < b := by omega
      have h2 : i ≠ b := by omega
      simp [hi, h1, h2, h0, BitVec.getLsbD_ofBool]
  · have h2 : i ≠ b := by omega
    simp [h2, BitVec.getLsbD_of_ge _ _ (Nat.le_of_not_lt hi)]

/-- One target bit of MemWrite: that bit changes and no other (R34). -/
theorem lbit_writeBit (m : Memory 8) (a : Nat) (bit : Bool) (k : Nat) :
    lbit (writeBit m a bit) k = if k = a then bit else lbit m k := by
  simp only [lbit, writeBit, Memory.at_write]
  by_cases hq : k / 8 = a / 8
  · rw [if_pos hq, getLsbD_setBit _ _ _ _ (Nat.mod_lt _ (by decide)), hq]
    by_cases hr : k % 8 = a % 8
    · rw [if_pos hr, if_pos (bitAddress_ext hq hr)]
    · rw [if_neg hr, if_neg (fun h => hr (by rw [h]))]
  · rw [if_neg hq, if_neg (fun h => hq (by rw [h]))]

/-! ## MemWrite -/

/-- R34: after `MemWrite(k, n, v)`, bit `k+i` is `v[i]` for `i < n`, and every other bit is as it was. -/
theorem lbit_memWrite (m : Memory 8) (k : Nat) (v : BitVec 32) (n a : Nat) :
    lbit (memWrite m k v n) a = if k ≤ a ∧ a < k + n then v.getLsbD (a - k) else lbit m a := by
  induction n with
  | zero => rw [if_neg (by omega)]; rfl
  | succ n ih =>
    rw [memWrite, lbit_writeBit]
    by_cases h : a = k + n
    · rw [if_pos h, if_pos (by omega), h, Nat.add_sub_cancel_left]
    · rw [if_neg h, ih]
      by_cases h' : k ≤ a ∧ a < k + n
      · rw [if_pos h', if_pos (by omega)]
      · rw [if_neg h', if_neg (by omega)]

/-- MemWrite leaves a byte that its range does not touch. -/
theorem read_memWrite_other (m : Memory 8) (k : Nat) (v : BitVec 32) (n c : Nat)
    (h : ∀ i, i < n → (k + i) / 8 ≠ c) : (memWrite m k v n).read c = m.read c := by
  induction n with
  | zero => rfl
  | succ n ih =>
    rw [memWrite, writeBit, Memory.read_write_other _ _ (Ne.symm (h n (Nat.lt_succ_self n)))]
    exact ih (fun i hi => h i (Nat.lt_succ_of_lt hi))

/-- MemWrite unlists nothing. -/
theorem isSome_read_memWrite (m : Memory 8) (k : Nat) (v : BitVec 32) (n c : Nat) (h : (m.read c).isSome) :
    ((memWrite m k v n).read c).isSome := by
  induction n with
  | zero => exact h
  | succ n ih =>
    rw [memWrite, writeBit, Memory.read_write]
    split
    · rfl
    · exact ih

/-- MemWrite keeps the canonical form. -/
theorem wf_memWrite (m : Memory 8) (k : Nat) (v : BitVec 32) (n : Nat) (h : m.wf) : (memWrite m k v n).wf := by
  induction n with
  | zero => exact h
  | succ n ih => exact Memory.wf_write _ _ _ ih

/-- MemWrite of a range inside the first `c` bytes lists nothing past them. -/
theorem below_memWrite (m : Memory 8) (k : Nat) (v : BitVec 32) (n c : Nat) (h : m.below c) (hr : k + n ≤ 8 * c) :
    (memWrite m k v n).below c := by
  induction n with
  | zero => exact h
  | succ n ih => exact Memory.below_write _ _ (ih (by omega)) (by omega)

/-! ## MemRead -/

/-- R33: MemRead of `n` bits is below `2^n`. -/
theorem memRead_lt (m : Memory 8) (k n : Nat) : memRead m k n < 2 ^ n := by
  induction n with
  | zero => simp [memRead]
  | succ n ih =>
    have : (lbit m (k + n)).toNat ≤ 1 := by cases lbit m (k + n) <;> decide
    have : (lbit m (k + n)).toNat * 2 ^ n ≤ 1 * 2 ^ n := Nat.mul_le_mul_right _ this
    simp only [memRead, Nat.pow_succ]
    omega

/-- R32, R33: bit `i` of MemRead is the bit at address `k+i`. -/
theorem testBit_memRead (m : Memory 8) (k n i : Nat) :
    (memRead m k n).testBit i = (decide (i < n) && lbit m (k + i)) := by
  induction n with
  | zero => simp [memRead]
  | succ n ih =>
    have hlt := memRead_lt m k n
    simp only [memRead]
    rw [show memRead m k n + (lbit m (k + n)).toNat * 2 ^ n = 2 ^ n * (lbit m (k + n)).toNat + memRead m k n by ring,
      Nat.testBit_two_pow_mul_add _ hlt]
    rcases Nat.lt_trichotomy i n with h | h | h
    · rw [if_pos h, ih]; simp [h, Nat.lt_succ_of_lt h]
    · subst h; cases lbit m (k + i) <;> simp
    · rw [if_neg (by omega)]
      have : i - n ≠ 0 := by omega
      cases lbit m (k + n)
      · simp [show ¬ i < n + 1 by omega]
      · rw [Bool.toNat_true, ← Nat.pow_zero 2, Nat.testBit_two_pow]; simp [show ¬ i < n + 1 by omega, Ne.symm this]

/-- MemRead depends on exactly the bits of its range (R33). -/
theorem memRead_congr {m m' : Memory 8} {k n : Nat} (h : ∀ i, i < n → lbit m (k + i) = lbit m' (k + i)) :
    memRead m k n = memRead m' k n := by
  induction n with
  | zero => rfl
  | succ n ih => simp only [memRead, ih (fun i hi => h i (Nat.lt_succ_of_lt hi)), h n (Nat.lt_succ_self n)]

/-- Bit `i` of the value that EXTRACT writes into RES (R70). -/
theorem getLsbD_memRead (m : Memory 8) (k n i : Nat) (hn : n ≤ 32) :
    (BitVec.ofNat 32 (memRead m k n)).getLsbD i = (decide (i < n) && lbit m (k + i)) := by
  rw [BitVec.getLsbD_ofNat, testBit_memRead]
  by_cases h : i < n
  · simp [h, show i < 32 by omega]
  · simp [h]

end Sys2Proof.Machine
end

