-- ==== Sys2Proof/Laws/Decode.lean ====
section
/-! SUPPORT. The fields of a descriptor put together from fields (R50). -/

namespace Sys2Proof

/-- Bit by bit, a descriptor is `val`, then `off`, then `w`, then `op` (R50). -/
theorem getLsbD_descriptor (op w : BitVec 8) (off : BitVec 16) (val : BitVec 32) (i : Nat) :
    (descriptor op w off val).getLsbD i =
      if i < 32 then val.getLsbD i
      else if i < 48 then off.getLsbD (i - 32)
      else if i < 56 then w.getLsbD (i - 48)
      else op.getLsbD (i - 56) := by
  change (op ++ w ++ off ++ val : BitVec (8 + 8 + 16 + 32)).getLsbD i = _
  rw [BitVec.getLsbD_append, BitVec.getLsbD_append, BitVec.getLsbD_append]
  by_cases h₁ : i < 32
  · rw [if_pos h₁, if_pos h₁]
  · rw [if_neg h₁, if_neg h₁]
    by_cases h₂ : i < 48
    · rw [if_pos h₂, if_pos (by omega)]
    · rw [if_neg h₂, if_neg (by omega), show i - 32 - 16 = i - 48 by omega]
      by_cases h₃ : i < 56
      · rw [if_pos h₃, if_pos (by omega)]
      · rw [if_neg h₃, if_neg (by omega), show i - 48 - 8 = i - 56 by omega]

@[simp] theorem descOp_descriptor (op w : BitVec 8) (off : BitVec 16) (val : BitVec 32) :
    descOp (descriptor op w off val) = op := by
  ext i hi
  rw [descOp, BitVec.getElem_extractLsb', getLsbD_descriptor, if_neg (by omega), if_neg (by omega), if_neg (by omega),
    Nat.add_sub_cancel_left, BitVec.getLsbD_eq_getElem]

@[simp] theorem descW_descriptor (op w : BitVec 8) (off : BitVec 16) (val : BitVec 32) :
    descW (descriptor op w off val) = w := by
  ext i hi
  rw [descW, BitVec.getElem_extractLsb', getLsbD_descriptor, if_neg (by omega), if_neg (by omega), if_pos (by omega),
    Nat.add_sub_cancel_left, BitVec.getLsbD_eq_getElem]

@[simp] theorem descOff_descriptor (op w : BitVec 8) (off : BitVec 16) (val : BitVec 32) :
    descOff (descriptor op w off val) = off := by
  ext i hi
  rw [descOff, BitVec.getElem_extractLsb', getLsbD_descriptor, if_neg (by omega), if_pos (by omega),
    Nat.add_sub_cancel_left, BitVec.getLsbD_eq_getElem]

@[simp] theorem descVal_descriptor (op w : BitVec 8) (off : BitVec 16) (val : BitVec 32) :
    descVal (descriptor op w off val) = val := by
  ext i hi
  rw [descVal, BitVec.getElem_extractLsb', getLsbD_descriptor, if_pos (by omega), Nat.zero_add,
    BitVec.getLsbD_eq_getElem]

@[simp] theorem descValHigh_eq (d : Descriptor) : descValHigh d = (descVal d).extractLsb' 8 24 := by
  ext i hi
  simp [descValHigh, descVal]

@[simp] theorem descByte_eq (d : Descriptor) : descByte d = (descVal d).setWidth 8 := by
  ext i hi
  simp [descByte, descVal, show i < 32 by omega]

/-- A descriptor is its four fields (R50). -/
theorem descriptor_fields (d : Descriptor) : descriptor (descOp d) (descW d) (descOff d) (descVal d) = d := by
  refine BitVec.eq_of_getLsbD_eq fun i hi => ?_
  simp only [getLsbD_descriptor, descOp, descW, descOff, descVal, BitVec.getLsbD_extractLsb']
  split
  · next h => simp [h]
  · split
    · next h h' => simp [show i - 32 < 16 by omega, show 32 + (i - 32) = i by omega]
    · split
      · next h h' h'' => simp [show i - 48 < 8 by omega, show 48 + (i - 48) = i by omega]
      · next h h' h'' => simp [show i - 56 < 8 by omega, show 56 + (i - 56) = i by omega]

end Sys2Proof
end

