-- ==== Sys2Proof/Laws/Packer.lean ====
section
/-! SUPPORT. The group map bit by bit (R82), and what the unpacked bytes and packed cells of a buffer depend on. -/

namespace Sys2Proof.Machine

/-- R82: bits `0` to `6-j` of `u_j` are the high bits of `p_j`; the rest are the low bits of `p_(j+1)`. -/
theorem getLsbD_unpackByte (p q : BitVec 7) (j i : Nat) (hj : j ≤ 6) (hi : i < 8) :
    (unpackByte p q j).getLsbD i = if i + j < 7 then p.getLsbD (i + j) else q.getLsbD (i + j - 7) := by
  simp only [unpackByte, BitVec.getLsbD_setWidth, BitVec.getLsbD_or, BitVec.getLsbD_ushiftRight,
    BitVec.getLsbD_shiftLeft]
  by_cases h : i + j < 7
  · simp [h, hi, show i < 7 - j by omega, Nat.add_comm j i, show i + j < 16 by omega]
  · have hp : p.getLsbD (j + i) = false := BitVec.getLsbD_of_ge _ _ (by omega)
    simp [h, hi, show ¬ i < 7 - j by omega, hp, show i < 16 by omega, show i - (7 - j) = i + j - 7 by omega,
      show i + j - 7 < 16 by omega]

/-- R82: bits `0` to `k-1` of `p_k` are the high bits of `u_(k-1)`; the rest are the low bits of `u_k`. -/
theorem getLsbD_packMiddle (t u : BitVec 8) (k i : Nat) (hk : 1 ≤ k ∧ k ≤ 6) (hi : i < 7) :
    (packMiddle t u k).getLsbD i = if i < k then t.getLsbD (i + 8 - k) else u.getLsbD (i - k) := by
  simp only [packMiddle, BitVec.getLsbD_setWidth, BitVec.getLsbD_or, BitVec.getLsbD_ushiftRight,
    BitVec.getLsbD_shiftLeft]
  by_cases h : i < k
  · simp [h, hi, show 8 - k + i = i + 8 - k by omega, show i + 8 - k < 16 by omega]
  · have ht : t.getLsbD (8 - k + i) = false := BitVec.getLsbD_of_ge _ _ (by omega)
    simp [h, hi, ht, show i < 16 by omega, show i - k < 16 by omega]

/-- R82: bit `i` of cell `k` is bit `7*k + i` of the group's bit stream, for every cell of the group. -/
theorem getLsbD_packCell (u : Nat → BitVec 8) (k i : Nat) (hk : k ≤ 7) (hi : i < 7) :
    (packCell u k).getLsbD i = (u ((7 * k + i) / 8)).getLsbD ((7 * k + i) % 8) := by
  unfold packCell
  split
  · next h => subst h; simp [hi, show i / 8 = 0 by omega, show i % 8 = i by omega]
  · split
    · next h => subst h; simp [hi, show (49 + i) / 8 = 6 by omega, show (49 + i) % 8 = 1 + i by omega]
    · next h0 h7 =>
      rw [getLsbD_packMiddle _ _ _ _ (by omega) hi]
      split
      · rw [show (7 * k + i) / 8 = k - 1 by omega, show (7 * k + i) % 8 = i + 8 - k by omega]
      · rw [show (7 * k + i) / 8 = k by omega, show (7 * k + i) % 8 = i - k by omega]

/-- R83: bit `c` of unpacked byte `i` is payload bit `8*i + c` of the wire buffer. -/
theorem getLsbD_unpackedByte (m : Memory 7) (i c : Nat) (hc : c < 8) :
    (unpackedByte m i).getLsbD c = (m.at ((8 * i + c) / 7)).getLsbD ((8 * i + c) % 7) := by
  rw [unpackedByte, getLsbD_unpackByte _ _ _ _ (by omega) hc]
  split
  · rw [show (8 * i + c) / 7 = 8 * (i / 7) + i % 7 by omega, show (8 * i + c) % 7 = c + i % 7 by omega]
  · rw [show (8 * i + c) / 7 = 8 * (i / 7) + i % 7 + 1 by omega, show (8 * i + c) % 7 = c + i % 7 - 7 by omega]

/-- R83: bit `c` of packed cell `i` is bit `7*i + c` of the logical buffer. -/
theorem getLsbD_packedCell (m : Memory 8) (i c : Nat) (hc : c < 7) :
    (packedCell m i).getLsbD c = (m.at ((7 * i + c) / 8)).getLsbD ((7 * i + c) % 8) := by
  rw [packedCell, getLsbD_packCell _ _ _ (by omega) hc, show 7 * (i / 8) + (7 * (i % 8) + c) / 8 = (7 * i + c) / 8 by omega,
    show (7 * (i % 8) + c) % 8 = (7 * i + c) % 8 by omega]

/-- An unpacked byte depends on its two cells. -/
theorem unpackedByte_congr {m m' : Memory 7} {i : Nat} (h₀ : m.at (8 * (i / 7) + i % 7) = m'.at (8 * (i / 7) + i % 7))
    (h₁ : m.at (8 * (i / 7) + i % 7 + 1) = m'.at (8 * (i / 7) + i % 7 + 1)) :
    unpackedByte m i = unpackedByte m' i := by
  simp [unpackedByte, h₀, h₁]

/-- A packed cell depends on the seven bytes of its group. -/
theorem packedCell_congr {m m' : Memory 8} {i : Nat} (h : ∀ j, j < 7 → m.at (7 * (i / 8) + j) = m'.at (7 * (i / 8) + j)) :
    packedCell m i = packedCell m' i := by
  unfold packedCell packCell
  have hk : i % 8 < 8 := Nat.mod_lt _ (by decide)
  split
  · simp only [h 0 (by decide)]
  · split
    · simp only [h 6 (by decide)]
    · simp only [h (i % 8 - 1) (by omega), h (i % 8) (by omega)]

end Sys2Proof.Machine
end

