-- ==== Sys2Proof/Laws/State.lean ====
section
/-! SUPPORT. One lemma per field per update of the state, each true by `rfl`, so that no later proof unfolds a record update. -/

namespace Sys2Proof.Machine

variable (s : State)

/-! ### `State.withRes` -/

@[simp] theorem State.withRes_lbuf (v : BitVec 32) : (s.withRes v).lbuf = s.lbuf := rfl
@[simp] theorem State.withRes_wbuf (v : BitVec 32) : (s.withRes v).wbuf = s.wbuf := rfl
@[simp] theorem State.withRes_llen (v : BitVec 32) : (s.withRes v).llen = s.llen := rfl
@[simp] theorem State.withRes_wlen (v : BitVec 32) : (s.withRes v).wlen = s.wlen := rfl
@[simp] theorem State.withRes_res (v : BitVec 32) : (s.withRes v).res = v := rfl
@[simp] theorem State.withRes_status (v : BitVec 32) : (s.withRes v).status = s.status := rfl
@[simp] theorem State.withRes_err (v : BitVec 32) : (s.withRes v).err = s.err := rfl
@[simp] theorem State.withRes_einfo (v : BitVec 32) : (s.withRes v).einfo = s.einfo := rfl
@[simp] theorem State.withRes_host (v : BitVec 32) : (s.withRes v).host = s.host := rfl
@[simp] theorem State.withRes_answers (v : BitVec 32) : (s.withRes v).answers = s.answers := rfl

/-! ### `State.withLbuf` -/

@[simp] theorem State.withLbuf_lbuf (m : Memory 8) : (s.withLbuf m).lbuf = m := rfl
@[simp] theorem State.withLbuf_wbuf (m : Memory 8) : (s.withLbuf m).wbuf = s.wbuf := rfl
@[simp] theorem State.withLbuf_llen (m : Memory 8) : (s.withLbuf m).llen = s.llen := rfl
@[simp] theorem State.withLbuf_wlen (m : Memory 8) : (s.withLbuf m).wlen = s.wlen := rfl
@[simp] theorem State.withLbuf_res (m : Memory 8) : (s.withLbuf m).res = s.res := rfl
@[simp] theorem State.withLbuf_status (m : Memory 8) : (s.withLbuf m).status = s.status := rfl
@[simp] theorem State.withLbuf_err (m : Memory 8) : (s.withLbuf m).err = s.err := rfl
@[simp] theorem State.withLbuf_einfo (m : Memory 8) : (s.withLbuf m).einfo = s.einfo := rfl
@[simp] theorem State.withLbuf_host (m : Memory 8) : (s.withLbuf m).host = s.host := rfl
@[simp] theorem State.withLbuf_answers (m : Memory 8) : (s.withLbuf m).answers = s.answers := rfl

/-! ### `State.withLogical` -/

@[simp] theorem State.withLogical_lbuf (n : Nat) (f : Nat → BitVec 8) : (s.withLogical n f).lbuf = s.lbuf.fill n f := rfl
@[simp] theorem State.withLogical_wbuf (n : Nat) (f : Nat → BitVec 8) : (s.withLogical n f).wbuf = s.wbuf := rfl
@[simp] theorem State.withLogical_llen (n : Nat) (f : Nat → BitVec 8) : (s.withLogical n f).llen = BitVec.ofNat 16 n := rfl
@[simp] theorem State.withLogical_wlen (n : Nat) (f : Nat → BitVec 8) : (s.withLogical n f).wlen = s.wlen := rfl
@[simp] theorem State.withLogical_res (n : Nat) (f : Nat → BitVec 8) : (s.withLogical n f).res = s.res := rfl
@[simp] theorem State.withLogical_status (n : Nat) (f : Nat → BitVec 8) : (s.withLogical n f).status = s.status := rfl
@[simp] theorem State.withLogical_err (n : Nat) (f : Nat → BitVec 8) : (s.withLogical n f).err = s.err := rfl
@[simp] theorem State.withLogical_einfo (n : Nat) (f : Nat → BitVec 8) : (s.withLogical n f).einfo = s.einfo := rfl
@[simp] theorem State.withLogical_host (n : Nat) (f : Nat → BitVec 8) : (s.withLogical n f).host = s.host := rfl
@[simp] theorem State.withLogical_answers (n : Nat) (f : Nat → BitVec 8) : (s.withLogical n f).answers = s.answers := rfl

/-! ### `State.withWire` -/

@[simp] theorem State.withWire_lbuf (n : Nat) (f : Nat → BitVec 7) : (s.withWire n f).lbuf = s.lbuf := rfl
@[simp] theorem State.withWire_wbuf (n : Nat) (f : Nat → BitVec 7) : (s.withWire n f).wbuf = s.wbuf.fill n f := rfl
@[simp] theorem State.withWire_llen (n : Nat) (f : Nat → BitVec 7) : (s.withWire n f).llen = s.llen := rfl
@[simp] theorem State.withWire_wlen (n : Nat) (f : Nat → BitVec 7) : (s.withWire n f).wlen = BitVec.ofNat 16 n := rfl
@[simp] theorem State.withWire_res (n : Nat) (f : Nat → BitVec 7) : (s.withWire n f).res = s.res := rfl
@[simp] theorem State.withWire_status (n : Nat) (f : Nat → BitVec 7) : (s.withWire n f).status = s.status := rfl
@[simp] theorem State.withWire_err (n : Nat) (f : Nat → BitVec 7) : (s.withWire n f).err = s.err := rfl
@[simp] theorem State.withWire_einfo (n : Nat) (f : Nat → BitVec 7) : (s.withWire n f).einfo = s.einfo := rfl
@[simp] theorem State.withWire_host (n : Nat) (f : Nat → BitVec 7) : (s.withWire n f).host = s.host := rfl
@[simp] theorem State.withWire_answers (n : Nat) (f : Nat → BitVec 7) : (s.withWire n f).answers = s.answers := rfl

/-! ### `State.withCell` -/

@[simp] theorem State.withCell_lbuf (c : BitVec 7) : (s.withCell c).lbuf = s.lbuf := rfl
@[simp] theorem State.withCell_wbuf (c : BitVec 7) : (s.withCell c).wbuf = s.wbuf.write s.wlen.toNat c := rfl
@[simp] theorem State.withCell_llen (c : BitVec 7) : (s.withCell c).llen = s.llen := rfl
@[simp] theorem State.withCell_wlen (c : BitVec 7) : (s.withCell c).wlen = BitVec.ofNat 16 (s.wlen.toNat + 1) := rfl
@[simp] theorem State.withCell_res (c : BitVec 7) : (s.withCell c).res = s.res := rfl
@[simp] theorem State.withCell_status (c : BitVec 7) : (s.withCell c).status = s.status := rfl
@[simp] theorem State.withCell_err (c : BitVec 7) : (s.withCell c).err = s.err := rfl
@[simp] theorem State.withCell_einfo (c : BitVec 7) : (s.withCell c).einfo = s.einfo := rfl
@[simp] theorem State.withCell_host (c : BitVec 7) : (s.withCell c).host = s.host := rfl
@[simp] theorem State.withCell_answers (c : BitVec 7) : (s.withCell c).answers = s.answers := rfl

/-! ### `State.withWlen` -/

@[simp] theorem State.withWlen_lbuf (n : BitVec 16) : (s.withWlen n).lbuf = s.lbuf := rfl
@[simp] theorem State.withWlen_wbuf (n : BitVec 16) : (s.withWlen n).wbuf = s.wbuf := rfl
@[simp] theorem State.withWlen_llen (n : BitVec 16) : (s.withWlen n).llen = s.llen := rfl
@[simp] theorem State.withWlen_wlen (n : BitVec 16) : (s.withWlen n).wlen = n := rfl
@[simp] theorem State.withWlen_res (n : BitVec 16) : (s.withWlen n).res = s.res := rfl
@[simp] theorem State.withWlen_status (n : BitVec 16) : (s.withWlen n).status = s.status := rfl
@[simp] theorem State.withWlen_err (n : BitVec 16) : (s.withWlen n).err = s.err := rfl
@[simp] theorem State.withWlen_einfo (n : BitVec 16) : (s.withWlen n).einfo = s.einfo := rfl
@[simp] theorem State.withWlen_host (n : BitVec 16) : (s.withWlen n).host = s.host := rfl
@[simp] theorem State.withWlen_answers (n : BitVec 16) : (s.withWlen n).answers = s.answers := rfl

/-! ### `State.withFaultRegs` -/

@[simp] theorem State.withFaultRegs_lbuf (f : Bool) (c : BitVec 8) (d : Descriptor) : (s.withFaultRegs f c d).lbuf = s.lbuf := rfl
@[simp] theorem State.withFaultRegs_wbuf (f : Bool) (c : BitVec 8) (d : Descriptor) : (s.withFaultRegs f c d).wbuf = s.wbuf := rfl
@[simp] theorem State.withFaultRegs_llen (f : Bool) (c : BitVec 8) (d : Descriptor) : (s.withFaultRegs f c d).llen = s.llen := rfl
@[simp] theorem State.withFaultRegs_wlen (f : Bool) (c : BitVec 8) (d : Descriptor) : (s.withFaultRegs f c d).wlen = s.wlen := rfl
@[simp] theorem State.withFaultRegs_res (f : Bool) (c : BitVec 8) (d : Descriptor) : (s.withFaultRegs f c d).res = s.res := rfl
@[simp] theorem State.withFaultRegs_status (f : Bool) (c : BitVec 8) (d : Descriptor) : (s.withFaultRegs f c d).status = statusOf f := rfl
@[simp] theorem State.withFaultRegs_err (f : Bool) (c : BitVec 8) (d : Descriptor) : (s.withFaultRegs f c d).err = c := rfl
@[simp] theorem State.withFaultRegs_einfo (f : Bool) (c : BitVec 8) (d : Descriptor) : (s.withFaultRegs f c d).einfo = d := rfl
@[simp] theorem State.withFaultRegs_host (f : Bool) (c : BitVec 8) (d : Descriptor) : (s.withFaultRegs f c d).host = s.host := rfl
@[simp] theorem State.withFaultRegs_answers (f : Bool) (c : BitVec 8) (d : Descriptor) : (s.withFaultRegs f c d).answers = s.answers := rfl

/-! ### `State.withHost` -/

@[simp] theorem State.withHost_lbuf (h : List HostAction) : (s.withHost h).lbuf = s.lbuf := rfl
@[simp] theorem State.withHost_wbuf (h : List HostAction) : (s.withHost h).wbuf = s.wbuf := rfl
@[simp] theorem State.withHost_llen (h : List HostAction) : (s.withHost h).llen = s.llen := rfl
@[simp] theorem State.withHost_wlen (h : List HostAction) : (s.withHost h).wlen = s.wlen := rfl
@[simp] theorem State.withHost_res (h : List HostAction) : (s.withHost h).res = s.res := rfl
@[simp] theorem State.withHost_status (h : List HostAction) : (s.withHost h).status = s.status := rfl
@[simp] theorem State.withHost_err (h : List HostAction) : (s.withHost h).err = s.err := rfl
@[simp] theorem State.withHost_einfo (h : List HostAction) : (s.withHost h).einfo = s.einfo := rfl
@[simp] theorem State.withHost_host (h : List HostAction) : (s.withHost h).host = h := rfl
@[simp] theorem State.withHost_answers (h : List HostAction) : (s.withHost h).answers = s.answers := rfl

/-! ### `State.withAnswer` -/

@[simp] theorem State.withAnswer_lbuf (n : Fin 8) (v : BitVec 64) : (s.withAnswer n v).lbuf = s.lbuf := rfl
@[simp] theorem State.withAnswer_wbuf (n : Fin 8) (v : BitVec 64) : (s.withAnswer n v).wbuf = s.wbuf := rfl
@[simp] theorem State.withAnswer_llen (n : Fin 8) (v : BitVec 64) : (s.withAnswer n v).llen = s.llen := rfl
@[simp] theorem State.withAnswer_wlen (n : Fin 8) (v : BitVec 64) : (s.withAnswer n v).wlen = s.wlen := rfl
@[simp] theorem State.withAnswer_res (n : Fin 8) (v : BitVec 64) : (s.withAnswer n v).res = s.res := rfl
@[simp] theorem State.withAnswer_status (n : Fin 8) (v : BitVec 64) : (s.withAnswer n v).status = s.status := rfl
@[simp] theorem State.withAnswer_err (n : Fin 8) (v : BitVec 64) : (s.withAnswer n v).err = s.err := rfl
@[simp] theorem State.withAnswer_einfo (n : Fin 8) (v : BitVec 64) : (s.withAnswer n v).einfo = s.einfo := rfl
@[simp] theorem State.withAnswer_host (n : Fin 8) (v : BitVec 64) : (s.withAnswer n v).host = s.host := rfl
@[simp] theorem State.withAnswer_answers (n : Fin 8) (v : BitVec 64) : (s.withAnswer n v).answers = (n, v) :: s.answers := rfl

/-! ### `resetBlock` -/

@[simp] theorem resetBlock_lbuf : (resetBlock s).lbuf = [] := rfl
@[simp] theorem resetBlock_wbuf : (resetBlock s).wbuf = [] := rfl
@[simp] theorem resetBlock_llen : (resetBlock s).llen = 0 := rfl
@[simp] theorem resetBlock_wlen : (resetBlock s).wlen = 0 := rfl
@[simp] theorem resetBlock_res : (resetBlock s).res = 0 := rfl
@[simp] theorem resetBlock_status : (resetBlock s).status = 0 := rfl
@[simp] theorem resetBlock_err : (resetBlock s).err = 0 := rfl
@[simp] theorem resetBlock_einfo : (resetBlock s).einfo = 0 := rfl
@[simp] theorem resetBlock_host : (resetBlock s).host = s.host := rfl
@[simp] theorem resetBlock_answers : (resetBlock s).answers = s.answers := rfl

/-! ### Taking a fault and returning from one -/

@[simp] theorem takeFault_lbuf (c : Cause) (d : Descriptor) : (takeFault c d s).lbuf = s.lbuf := rfl
@[simp] theorem takeFault_wbuf (c : Cause) (d : Descriptor) : (takeFault c d s).wbuf = s.wbuf := rfl
@[simp] theorem takeFault_llen (c : Cause) (d : Descriptor) : (takeFault c d s).llen = s.llen := rfl
@[simp] theorem takeFault_wlen (c : Cause) (d : Descriptor) : (takeFault c d s).wlen = s.wlen := rfl
@[simp] theorem takeFault_res (c : Cause) (d : Descriptor) : (takeFault c d s).res = s.res := rfl
@[simp] theorem takeFault_status (c : Cause) (d : Descriptor) : (takeFault c d s).status = statusOf true := rfl
@[simp] theorem takeFault_err (c : Cause) (d : Descriptor) : (takeFault c d s).err = c.code := rfl
@[simp] theorem takeFault_einfo (c : Cause) (d : Descriptor) : (takeFault c d s).einfo = d := rfl
@[simp] theorem takeFault_host (c : Cause) (d : Descriptor) : (takeFault c d s).host = s.host := rfl
@[simp] theorem takeFault_answers (c : Cause) (d : Descriptor) : (takeFault c d s).answers = s.answers := rfl
@[simp] theorem returnFromFault_lbuf : (returnFromFault s).lbuf = s.lbuf := rfl
@[simp] theorem returnFromFault_wbuf : (returnFromFault s).wbuf = s.wbuf := rfl
@[simp] theorem returnFromFault_llen : (returnFromFault s).llen = s.llen := rfl
@[simp] theorem returnFromFault_wlen : (returnFromFault s).wlen = s.wlen := rfl
@[simp] theorem returnFromFault_res : (returnFromFault s).res = s.res := rfl
@[simp] theorem returnFromFault_status : (returnFromFault s).status = statusOf false := rfl
@[simp] theorem returnFromFault_err : (returnFromFault s).err = 0 := rfl
@[simp] theorem returnFromFault_einfo : (returnFromFault s).einfo = 0 := rfl
@[simp] theorem returnFromFault_host : (returnFromFault s).host = s.host := rfl
@[simp] theorem returnFromFault_answers : (returnFromFault s).answers = s.answers := rfl

/-! ### The flag F -/

@[simp] theorem faultFlag_of_status {t : State} {f : Bool} (h : t.status = statusOf f) : faultFlag t = f := by
  cases f <;> simp [faultFlag, readStatus, h, statusOf]

@[simp] theorem faultFlag_withRes (v : BitVec 32) : faultFlag (s.withRes v) = faultFlag s := rfl
@[simp] theorem faultFlag_withLbuf (m : Memory 8) : faultFlag (s.withLbuf m) = faultFlag s := rfl
@[simp] theorem faultFlag_withLogical (n : Nat) (f : Nat → BitVec 8) : faultFlag (s.withLogical n f) = faultFlag s := rfl
@[simp] theorem faultFlag_withWire (n : Nat) (f : Nat → BitVec 7) : faultFlag (s.withWire n f) = faultFlag s := rfl
@[simp] theorem faultFlag_withCell (c : BitVec 7) : faultFlag (s.withCell c) = faultFlag s := rfl
@[simp] theorem faultFlag_withWlen (n : BitVec 16) : faultFlag (s.withWlen n) = faultFlag s := rfl
@[simp] theorem faultFlag_withHost (h : List HostAction) : faultFlag (s.withHost h) = faultFlag s := rfl
@[simp] theorem faultFlag_withAnswer (n : Fin 8) (v : BitVec 64) : faultFlag (s.withAnswer n v) = faultFlag s := rfl
@[simp] theorem faultFlag_resetBlock : faultFlag (resetBlock s) = false := by simp [faultFlag, readStatus]
@[simp] theorem faultFlag_reset : faultFlag State.reset = false := by decide

@[simp] theorem faultFlag_withFaultRegs (f : Bool) (c : BitVec 8) (d : Descriptor) :
    faultFlag (s.withFaultRegs f c d) = f := faultFlag_of_status rfl

@[simp] theorem faultFlag_takeFault (c : Cause) (d : Descriptor) : faultFlag (takeFault c d s) = true :=
  faultFlag_of_status rfl

@[simp] theorem faultFlag_returnFromFault : faultFlag (returnFromFault s) = false := faultFlag_of_status rfl

/-- A fault is recorded with a cause code in 1 to 6 (R101). -/
theorem code_bounds (c : Cause) : 1 ≤ c.code.toNat ∧ c.code.toNat ≤ 6 := by cases c <;> decide

end Sys2Proof.Machine
end

