-- ==== Sys2Proof/Laws/Ops.lean ====
section
/-! SUPPORT. What the shared operations can do, said once each: the accesses, the checks, the order of checks, and the outcome of
every command. Later proofs cite these and unfold no meaning. -/

namespace Sys2Proof.Machine

/-! ## The parameters as numerals (R5) -/

@[simp] theorem lBytes_eq : Config.lBytes = 448 := rfl
@[simp] theorem wBytes_eq : Config.wBytes = 512 := rfl
@[simp] theorem vw_eq : Config.vw = 32 := rfl

/-! ## Accesses -/

@[simp] theorem unlessFault_none (t : State) : unlessFault none t = .next t := rfl

/-- An access that answers a next state answers `t`, and nothing was missing. -/
theorem unlessFault_next {need : Option Fault} {t u : State} (h : unlessFault need t = .next u) : need = none ∧ u = t := by
  cases need with
  | none => exact ⟨rfl, by cases h; rfl⟩
  | some f => cases h

/-- The bytes a command needs are there exactly when they exist and have a value. -/
theorem needBytes_eq_none (s : State) (first count : Nat) :
    needBytes s first count = none ↔
      first + count ≤ 448 ∧ ∀ i, i < count → (s.lbuf.read (first + i)).isSome := by
  simp only [needBytes, lBytes_eq]
  split
  · next h => simp; omega
  · next h =>
    split
    · next h' =>
      simp only [List.all_eq_true, List.mem_range] at h'
      simp only [true_iff]
      exact ⟨Nat.le_of_not_lt h, h'⟩
    · next h' =>
      simp only [List.all_eq_true, List.mem_range] at h'
      simp only [reduceCtorEq, false_iff]
      exact fun hc => h' hc.2

/-- The cells a command needs are there exactly when they exist and have a value. -/
theorem needCells_eq_none (s : State) (first count : Nat) :
    needCells s first count = none ↔
      first + count ≤ 512 ∧ ∀ i, i < count → (s.wbuf.read (first + i)).isSome := by
  simp only [needCells, wBytes_eq]
  split
  · next h => simp; omega
  · next h =>
    split
    · next h' =>
      simp only [List.all_eq_true, List.mem_range] at h'
      simp only [true_iff]
      exact ⟨Nat.le_of_not_lt h, h'⟩
    · next h' =>
      simp only [List.all_eq_true, List.mem_range] at h'
      simp only [reduceCtorEq, false_iff]
      exact fun hc => h' hc.2

theorem roomForCell_eq_none (i : Nat) : roomForCell i = none ↔ i < 512 := by
  simp only [roomForCell, wBytes_eq]
  split <;> simp <;> omega

/-- R36: a field inside the first `c` bytes touches only bytes below `c`. -/
theorem touched_le {k w c : Nat} (h : k + w ≤ 8 * c) : k / 8 + bytesTouched k w ≤ c := by
  unfold bytesTouched
  split <;> omega

/-- The bit at `k+i` of a field lies in one of the bytes the field touches. -/
theorem bit_in_touched {k w i : Nat} (hi : i < w) :
    ∃ j, j < bytesTouched k w ∧ (k + i) / 8 = k / 8 + j := by
  refine ⟨(k + i) / 8 - k / 8, ?_, by omega⟩
  unfold bytesTouched
  rw [if_neg (by omega)]
  omega

/-! ## The checks -/

theorem accessCheck_eq_none (off : BitVec 16) (w : BitVec 8) (s : State) :
    accessCheck off w s = none ↔ w.toNat ≤ 32 ∧ off.toNat + w.toNat ≤ 8 * s.llen.toNat := by
  simp only [accessCheck, vw_eq]
  split
  · simp; omega
  · split <;> simp <;> omega

theorem packCheck_eq_none (s : State) : packCheck s = none ↔ s.llen.toNat % 7 = 0 := by
  simp only [packCheck]
  split <;> simp_all

theorem lclrCheck_eq_none (n : BitVec 16) : lclrCheck n = none ↔ n.toNat ≤ 448 := by
  simp only [lclrCheck, lBytes_eq]
  split <;> simp <;> omega

theorem wpushCheck_eq_none (b : BitVec 8) (s : State) :
    wpushCheck b s = none ↔ b.getLsbD 7 = false ∧ s.wlen.toNat ≠ 512 := by
  simp only [wpushCheck, wBytes_eq]
  split
  · simp_all
  · split <;> simp_all

theorem wrdCheck_eq_none (idx : BitVec 16) (s : State) : wrdCheck idx s = none ↔ idx.toNat < s.wlen.toNat := by
  simp only [wrdCheck]
  split <;> simp <;> omega

/-! ## The order of checks of one command (R61) -/

section RunCommand
variable {i : Instr} {check : Option Cause} {effect : Host.Outcome State Fault Refusal} {s t : State}

/-- R106: while F = 1 the command is dropped. -/
theorem runCommand_dropped (hF : faultFlag s = true) : runCommand i check effect s = .next s := by
  simp [runCommand, hF]

/-- R104: with F = 0 a failed check enters a fault. -/
theorem runCommand_raises {c : Cause} (hF : faultFlag s = false) (hc : check = some c) :
    runCommand i check effect s = .next (takeFault c (encode i) s) := by
  simp [runCommand, hF, hc]

/-- With F = 0 and no failed check the command has its effect. -/
theorem runCommand_runs (hF : faultFlag s = false) (hc : check = none) : runCommand i check effect s = effect := by
  simp [runCommand, hF, hc]

/-- Everything a command that is not FCLR can do when it answers a next state: it is dropped, it faults, or it completes. -/
theorem runCommand_next (h : runCommand i check effect s = .next t) :
    (faultFlag s = true ∧ t = s) ∨
    (faultFlag s = false ∧ ∃ c, check = some c ∧ t = takeFault c (encode i) s) ∨
    (faultFlag s = false ∧ check = none ∧ effect = .next t) := by
  cases hF : faultFlag s with
  | true => rw [runCommand_dropped hF] at h; cases h; exact .inl ⟨rfl, rfl⟩
  | false =>
    cases hc : check with
    | none => rw [runCommand_runs hF hc] at h; exact .inr (.inr ⟨rfl, rfl, h⟩)
    | some c => rw [runCommand_raises hF hc] at h; cases h; exact .inr (.inl ⟨rfl, c, rfl, rfl⟩)

end RunCommand

/-! ## Every command -/

/-- The operand check of a command; UNPACK, WCLR and FCLR have none. -/
def checkOf (i : Instr) (s : State) : Option Cause :=
  match i with
  | .extract off w => accessCheck off w s
  | .set off w _ => accessCheck off w s
  | .unpack => none
  | .pack => packCheck s
  | .lclr n => lclrCheck n
  | .wclr => none
  | .wpush b => wpushCheck b s
  | .wrd idx => wrdCheck idx s
  | .fclr => none

/-- What must be there for a command's effect (the model's own faults). -/
def needOf (i : Instr) (s : State) : Option Fault :=
  match i with
  | .extract off w => needBytes s (off.toNat / 8) (bytesTouched off.toNat w.toNat)
  | .set off w _ => needBytes s (off.toNat / 8) (bytesTouched off.toNat w.toNat)
  | .unpack => needCells s 0 s.wlen.toNat
  | .pack => needBytes s 0 s.llen.toNat
  | .lclr _ => none
  | .wclr => none
  | .wpush _ => roomForCell s.wlen.toNat
  | .wrd idx => needCells s idx.toNat 1
  | .fclr => none

/-- The state after a command's effect. -/
def effectOf (i : Instr) (s : State) : State :=
  match i with
  | .extract off w => s.withRes (BitVec.ofNat 32 (memRead s.lbuf off.toNat w.toNat))
  | .set off w val => s.withLbuf (memWrite s.lbuf off.toNat val w.toNat)
  | .unpack => s.withLogical (ulen s.wlen.toNat) (unpackedByte s.wbuf)
  | .pack => s.withWire (plen s.llen.toNat) (packedCell s.lbuf)
  | .lclr n => s.withLogical n.toNat (fun _ => 0)
  | .wclr => s.withWlen 0
  | .wpush b => s.withCell (b.setWidth 7)
  | .wrd idx => s.withRes ((s.wbuf.at idx.toNat).setWidth 32)
  | .fclr => returnFromFault s

/-- Every command but FCLR goes through the order of checks of R61. -/
theorem exec_eq_runCommand (i : Instr) (hi : i ≠ .fclr) (s : State) :
    exec i s = runCommand i (checkOf i s) (unlessFault (needOf i s) (effectOf i s)) s := by
  cases i <;> first | rfl | exact absurd rfl hi

/-- Everything a command can do when it answers a next state. -/
theorem exec_next {i : Instr} {s t : State} (h : exec i s = .next t) :
    (i ≠ .fclr ∧ faultFlag s = true ∧ t = s) ∨
    (i ≠ .fclr ∧ faultFlag s = false ∧ ∃ c, checkOf i s = some c ∧ t = takeFault c (encode i) s) ∨
    ((i = .fclr ∨ faultFlag s = false) ∧ checkOf i s = none ∧ needOf i s = none ∧ t = effectOf i s) := by
  by_cases hi : i = .fclr
  · subst hi
    refine .inr (.inr ⟨.inl rfl, rfl, rfl, ?_⟩)
    cases h; rfl
  · rw [exec_eq_runCommand i hi] at h
    rcases runCommand_next h with ⟨hF, ht⟩ | ⟨hF, hc⟩ | ⟨hF, hc, he⟩
    · exact .inl ⟨hi, hF, ht⟩
    · exact .inr (.inl ⟨hi, hF, hc⟩)
    · exact .inr (.inr ⟨.inr hF, hc, unlessFault_next he⟩)

/-- With F = 0, a command with no failed check whose accesses are all there completes with its effect. -/
theorem exec_completes {i : Instr} {s : State} (hF : faultFlag s = false) (hc : checkOf i s = none) (hn : needOf i s = none) :
    exec i s = .next (effectOf i s) := by
  by_cases hi : i = .fclr
  · subst hi; rfl
  · rw [exec_eq_runCommand i hi, runCommand_runs hF hc, hn, unlessFault_none]

/-- With F = 0, a command whose check fails enters a fault. -/
theorem exec_raises {i : Instr} {s : State} {c : Cause} (hF : faultFlag s = false) (hc : checkOf i s = some c) :
    exec i s = .next (takeFault c (encode i) s) := by
  have hi : i ≠ .fclr := by rintro rfl; cases hc
  rw [exec_eq_runCommand i hi, runCommand_raises hF hc]

end Sys2Proof.Machine
end

