-- ==== Sys2Proof/Laws/PerInstr.lean ====
section
/-! SUPPORT. The family of laws stated of every command as syntax: its descriptor matches its own row of the opcode map (R53). -/

namespace Sys2Proof.Laws.EncodeMatchesRow

/-- R53: the descriptor of a command, masked by its row's mask, is its row's match. -/
def Statement (i : Instr) : Prop := encode i &&& opcodeMask i = opcodeMatch i

/-- A masked descriptor is put together from its masked fields. -/
theorem descriptor_and (op w op' w' : BitVec 8) (off off' : BitVec 16) (val val' : BitVec 32) :
    descriptor op w off val &&& descriptor op' w' off' val' =
      descriptor (op &&& op') (w &&& w') (off &&& off') (val &&& val') := by
  refine BitVec.eq_of_getLsbD_eq fun i _ => ?_
  simp only [BitVec.getLsbD_and, getLsbD_descriptor]
  split
  · rfl
  · split
    · rfl
    · split <;> rfl

theorem extract (off : BitVec 16) (w : BitVec 8) : Statement (.extract off w) := by
  simp only [Statement, encode, opcodeMask, opcodeMatch]
  rw [show (0xFF000000FFFFFFFF : Descriptor) = descriptor 0xFF 0 0 0xFFFFFFFF by decide, descriptor_and]
  simp; decide

theorem set (off : BitVec 16) (w : BitVec 8) (val : BitVec 32) : Statement (.set off w val) := by
  simp only [Statement, encode, opcodeMask, opcodeMatch]
  rw [show (0xFF00000000000000 : Descriptor) = descriptor 0xFF 0 0 0 by decide, descriptor_and]
  simp; decide

theorem unpack : Statement .unpack := by unfold Statement; decide

theorem pack : Statement .pack := by unfold Statement; decide

theorem lclr (n : BitVec 16) : Statement (.lclr n) := by
  simp only [Statement, encode, opcodeMask, opcodeMatch]
  rw [show (0xFFFF0000FFFFFFFF : Descriptor) = descriptor 0xFF 0xFF 0 0xFFFFFFFF by decide, descriptor_and]
  simp; decide

theorem wclr : Statement .wclr := by unfold Statement; decide

theorem wpush (b : BitVec 8) : Statement (.wpush b) := by
  simp only [Statement, encode, opcodeMask, opcodeMatch]
  rw [show (0xFFFFFFFFFFFFFF00 : Descriptor) = descriptor 0xFF 0xFF 0xFFFF 0xFFFFFF00 by decide, descriptor_and]
  have h : b.setWidth 32 &&& 0xFFFFFF00#32 = 0 := by
    refine BitVec.eq_of_getLsbD_eq fun i hi => ?_
    by_cases hb : i < 8
    · have : ∀ j : Fin 8, (0xFFFFFF00#32).getLsbD j = false := by decide
      simp only [BitVec.getLsbD_and, this ⟨i, hb⟩, Bool.and_false]
      simp
    · simp [BitVec.getLsbD_of_ge b i (by omega)]
  simp only [BitVec.ofNat_eq_ofNat] at h ⊢
  rw [h]
  decide

theorem wrd (idx : BitVec 16) : Statement (.wrd idx) := by
  simp only [Statement, encode, opcodeMask, opcodeMatch]
  rw [show (0xFFFF0000FFFFFFFF : Descriptor) = descriptor 0xFF 0xFF 0 0xFFFFFFFF by decide, descriptor_and]
  simp; decide

theorem fclr : Statement .fclr := by unfold Statement; decide

end Sys2Proof.Laws.EncodeMatchesRow
end

