-- ==== Sys2Proof/Laws/Safety.lean ====
section
/-! SUPPORT. What the invariant gives a command: every byte and cell it needs is there; and the two readings of a bit agree. -/

namespace Sys2Proof.Machine

/-- Where a byte has a value, the bit of R31 is the one `lbit` computes. -/
theorem bitAt_iff_lbit {m : Memory 8} {k : Nat} {v : Bool} (h : (m.read (k / 8)).isSome) : BitAt m k v ↔ lbit m k = v := by
  rw [BitAt, Memory.read_eq_at _ h, lbit]
  simp

/-- Both memories of the reset state are in canonical form. -/
theorem reset_canonical : State.reset.Canonical := by decide

variable {s : State}

theorem State.Inv.byteHeld (h : s.Inv) {i : Nat} (hi : i < s.llen.toNat) : (s.lbuf.read i).isSome := h.2.2.2.1.1 i hi

theorem State.Inv.cellHeld (h : s.Inv) {i : Nat} (hi : i < s.wlen.toNat) : (s.wbuf.read i).isSome := h.2.2.2.1.2 i hi

theorem State.Inv.llen_le (h : s.Inv) : s.llen.toNat ≤ 448 := h.2.1.1

theorem State.Inv.wlen_le (h : s.Inv) : s.wlen.toNat ≤ 512 := h.2.1.2

/-- The bytes of a field inside the logical buffer are there. -/
theorem State.Inv.needBytes_field (h : s.Inv) {k w : Nat} (hr : k + w ≤ 8 * s.llen.toNat) :
    needBytes s (k / 8) (bytesTouched k w) = none := by
  have ht := touched_le hr
  have hl := h.llen_le
  exact (needBytes_eq_none _ _ _).2 ⟨by omega, fun i hi => h.byteHeld (by omega)⟩

/-- The bytes of the whole logical buffer are there. -/
theorem State.Inv.needBytes_all (h : s.Inv) : needBytes s 0 s.llen.toNat = none := by
  have hl := h.llen_le
  exact (needBytes_eq_none _ _ _).2 ⟨by omega, fun i hi => h.byteHeld (by omega)⟩

/-- Any cells of the wire buffer are there. -/
theorem State.Inv.needCells (h : s.Inv) {a n : Nat} (hr : a + n ≤ s.wlen.toNat) : needCells s a n = none := by
  have hl := h.wlen_le
  exact (needCells_eq_none _ _ _).2 ⟨by omega, fun i hi => h.cellHeld (by omega)⟩

/-- Under the invariant a command whose check passes has all it needs. -/
theorem State.Inv.needOf (h : s.Inv) {i : Instr} (hc : checkOf i s = none) : needOf i s = none := by
  cases i with
  | extract off w => exact h.needBytes_field ((accessCheck_eq_none _ _ _).1 hc).2
  | set off w val => exact h.needBytes_field ((accessCheck_eq_none _ _ _).1 hc).2
  | unpack => exact h.needCells (by omega)
  | pack => exact h.needBytes_all
  | lclr n => rfl
  | wclr => rfl
  | wpush b =>
    have hw := ((wpushCheck_eq_none _ _).1 hc).2
    have hl := h.wlen_le
    exact (roomForCell_eq_none _).2 (by omega)
  | wrd idx =>
    have hw := (wrdCheck_eq_none _ _).1 hc
    exact h.needCells (by omega)
  | fclr => rfl

end Sys2Proof.Machine
end

