-- ==== Sys2Proof/Tests/Slice0.lean ====
section
/-! SUPPORT. Tests. Expected values come from the spec: the encodings of 30_encoding.md written out bit by bit, and the vectors of
95_test_vectors.md (named in each comment). Each witness shows a state and operands that meet the hypotheses of the obligation it
is named after, clause by clause where the clauses differ. -/

namespace Sys2Proof.Tests

open Sys2Proof.Machine

/-! ## Helpers -/

/-- A memory holding `vs` from index 0. -/
def cells {w : Nat} (vs : List (BitVec w)) : Memory w := (List.range vs.length).zip vs

/-- The state with the logical buffer `l` and the wire buffer `v`, every register 0 and no transaction to come. -/
def st (l : List Byte) (v : List Cell7) : State :=
  { State.reset with
    lbuf := cells l, llen := BitVec.ofNat 16 l.length, wbuf := cells v, wlen := BitVec.ofNat 16 v.length }

/-- The next state of an outcome, if it is one. -/
def nextOf (o : Host.Outcome State Fault Refusal) : Option State :=
  match o with
  | .next t => some t
  | .fault _ => none
  | .refused _ => none

/-- Faulted as V-F36 to V-F42 are: PACK_LEN of a PACK. -/
def faulted (s : State) : State := { s with status := 1, err := 4, einfo := 0x0400000000000000 }

/-- The buffer of V-A1 to V-A15. -/
def five : List Byte := [0x12, 0x34, 0x56, 0x78, 0x9A]

/-- The wire group of V-P2. -/
def wireGroup : List Cell7 := [0x5E, 0x5B, 0x7A, 0x7D, 0x2E, 0x02, 0x0D, 0x2B]

/-- The logical group of V-P2. -/
def byteGroup : List Byte := [0xDE, 0xAD, 0xBE, 0xEF, 0x12, 0x34, 0x56]

/-! ## Decoding: words written out from R50 and R53 (`op`, `w`, `off`, `val`), each for one command -/

/-- EXTRACT 70, 4 (V-E1). -/
theorem test_decode_extract : decodeTableWord 64 0b0000000100000100000000000100011000000000000000000000000000000000 = some (.extract 70 4) := by decide

/-- SET 3, 32, 0xDEADBEEF (V-E3). -/
theorem test_decode_set : decodeTableWord 64 0b0000001000100000000000000000001111011110101011011011111011101111 = some (.set 3 32 0xDEADBEEF) := by decide

/-- UNPACK (V-E5). -/
theorem test_decode_unpack : decodeTableWord 64 0b0000001100000000000000000000000000000000000000000000000000000000 = some (.unpack) := by decide

/-- PACK (V-E6). -/
theorem test_decode_pack : decodeTableWord 64 0b0000010000000000000000000000000000000000000000000000000000000000 = some (.pack) := by decide

/-- LCLR 350 (V-E7). -/
theorem test_decode_lclr : decodeTableWord 64 0b0000010100000000000000010101111000000000000000000000000000000000 = some (.lclr 350) := by decide

/-- WCLR (V-E9). -/
theorem test_decode_wclr : decodeTableWord 64 0b0000011000000000000000000000000000000000000000000000000000000000 = some (.wclr) := by decide

/-- WPUSH 0xFF (V-E11). -/
theorem test_decode_wpush : decodeTableWord 64 0b0000011100000000000000000000000000000000000000000000000011111111 = some (.wpush 0xFF) := by decide

/-- WRD 399 (V-E12). -/
theorem test_decode_wrd : decodeTableWord 64 0b0000100000000000000000011000111100000000000000000000000000000000 = some (.wrd 399) := by decide

/-- FCLR (V-E13). -/
theorem test_decode_fclr : decodeTableWord 64 0b0000100100000000000000000000000000000000000000000000000000000000 = some (.fclr) := by decide

/-- V-E14 to V-E21: illegal descriptors. -/
theorem test_decode_illegal :
    [0x0100000000000001, 0x0300000000000001, 0x0501000000000000, 0x0700000000000100, 0x0900000000000001,
      0x0000000000000000, 0x0A00000000000000, 0x8100000000000000].all (fun w => (decodeTableWord 64 w).isNone) := by decide

/-- No two rows of the opcode map match one descriptor (R53): each row's match is no other row's. -/
theorem test_opcodeMap_rows_differ :
    ([.extract 0 0, .set 0 0 0, .unpack, .pack, .lclr 0, .wclr, .wpush 0, .wrd 0, .fclr].map opcodeMatch).Pairwise (· ≠ ·) := by
  decide

/-! ## Well-formedness of listing lines: each check refuses an ill-formed line (R58, R59) -/

theorem test_wellFormed_refuses :
    [Line.command (.extract 65536 1), .command (.extract 0 256), .command (.set 65536 1 0), .command (.set 0 256 0),
      .command (.set 0 1 4294967296), .command (.lclr 65536), .command (.wpush 256), .command (.wrd 65536), .lrdb 8192,
      .lwrb 8192 0, .lwrb 0 256, .wload [], .wload [0, 256], .lload [], .lload [256]].all (fun l => !l.wellFormed) := by decide

theorem test_wellFormed_refuses_long_lload (vs : List Nat) (h : 8192 < vs.length) : Line.wellFormed (.lload vs) = false := by
  simp [Line.wellFormed]; omega

/-- R58: a value that fits its field but faults is not rejected. -/
theorem test_wellFormed_admits_faulting_values :
    [Line.command (.extract 0 40), .command (.wpush 0x80), .command (.set 65535 255 4294967295), .lrdb 8191].all
      Line.wellFormed := by decide

/-! ## Listing text (R58, R59; V-A29, V-E13 and the pseudo-commands of section 6) -/

theorem test_assembleText_set : assembleText "SET 3, 32, 0xDEADBEEF ; V-A29".toList = some [0x02200003DEADBEEF] := by decide

theorem test_assembleText_pseudo :
    assembleText "LRDB 3".toList = some [0x0108001800000000] ∧ assembleText "LWRB 447, 0xFF".toList = some [0x02080DF8000000FF] := by
  decide

theorem test_assembleText_wload :
    assembleText "WLOAD 0x5E, 0x5B".toList = some [0x0600000000000000, 0x070000000000005E, 0x070000000000005B] := by decide

theorem test_assembleText_rejects :
    assembleText "WPUSH 256".toList = none ∧ assembleText "NOP".toList = none ∧ assembleText " ; only a comment".toList = some [] := by
  decide

/-! ## Single commands -/

/-- V-A7: five bytes, a shift of 7. -/
theorem test_extract : (nextOf (exec (.extract 7 32) (st five []))).map (·.res) = some 0x34F0AC68 := by decide

/-- V-A14: the empty range at the very end is legal. -/
theorem test_extract_empty : (nextOf (exec (.extract 40 0) { st five [] with res := 7 })).map (·.res) = some 0 := by decide

/-- V-A28: a field across three bytes. -/
theorem test_set :
    nextOf (exec (.set 4 16 0x0F0F) (st [0xAA, 0x55, 0xAA] [])) = some (st [0xFA, 0xF0, 0xA0] []) := by decide

/-- V-A26: only the low 5 bits of `val` are used. -/
theorem test_set_high_bits :
    nextOf (exec (.set 6 5 0xFFFFFFE0) (st [0xFF, 0xFF] [])) = some (st [0x3F, 0xF8] []) := by decide

/-- R80's example (V-P2 unpacked). -/
theorem test_unpack : nextOf (exec .unpack (st [] wireGroup)) = some (st byteGroup wireGroup) := by decide

/-- V-P19: a full group and a partial one of two cells. -/
theorem test_unpack_partial :
    nextOf (exec .unpack (st [] (wireGroup ++ [0x7F, 0x01]))) = some (st (byteGroup ++ [0xFF]) (wireGroup ++ [0x7F, 0x01])) := by
  decide

/-- V-P1. -/
theorem test_pack :
    (nextOf (exec .pack (st [1, 2, 3, 4, 5, 6, 7] []))).map (·.wbuf) =
      some (cells [0x01, 0x04, 0x0C, 0x20, 0x50, 0x40, 0x41, 0x03]) := by decide

/-- V-F14: PACK_LEN. -/
theorem test_pack_len :
    nextOf (exec .pack (st five [1, 2, 3])) = some { st five [1, 2, 3] with status := 1, err := 4, einfo := 0x0400000000000000 } := by
  decide

/-- V-B11. -/
theorem test_lclr : nextOf (exec (.lclr 3) (st [0xAB] [1, 2, 3])) = some (st [0, 0, 0] [1, 2, 3]) := by decide

/-- V-F16: one more than LBYTES. -/
theorem test_lclr_range : (nextOf (exec (.lclr 449) (st five []))).map (fun t => (t.llen, t.err)) = some (5, 3) := by decide

/-- V-B4. -/
theorem test_wclr : (nextOf (exec .wclr (st five [1, 2, 3]))).map (fun t => (t.wlen, t.llen)) = some (0, 5) := by decide

/-- V-B5. -/
theorem test_wpush : nextOf (exec (.wpush 0x7F) (st [] [1, 2, 3])) = some (st [] [1, 2, 3, 0x7F]) := by decide

/-- V-F26: DATA7 and not WFULL when both apply. -/
theorem test_wpush_priority :
    (nextOf (exec (.wpush 0x80) { State.reset with wlen := 512 })).map (fun t => (t.wlen, t.err, t.einfo)) =
      some (512, 5, 0x0700000000000080) := by decide

/-- V-B7. -/
theorem test_wrd :
    nextOf (exec (.wrd 2) { st [] [1, 2, 3] with res := 0xAAAAAAAA }) = some { st [] [1, 2, 3] with res := 3 } := by decide

/-- V-F22: `idx = WLEN`. -/
theorem test_wrd_range : (nextOf (exec (.wrd 3) (st [] [1, 2, 3]))).map (fun t => (t.res, t.err)) = some (0, 3) := by decide

/-- V-F41. -/
theorem test_fclr : nextOf (exec .fclr (faulted (st [0xAB] []))) = some (st [0xAB] []) := by decide

/-! ## Ports -/

/-- V-F37: a dropped command changes nothing but the port. -/
theorem test_dropped :
    nextOf (step { faulted (st [0xAB] []) with host := [.command 0x0108000000000000] }) = some (faulted (st [0xAB] [])) := by decide

/-- V-F1: the all-zero descriptor. -/
theorem test_illegal :
    (nextOf (step { st five [] with host := [.command 0] })).map (fun t => (t.status, t.err, t.einfo)) = some (1, 1, 0) := by decide

/-- V-F42: reset. -/
theorem test_reset : nextOf (step { faulted (st [0xAB] [1]) with host := [.reset] }) = some State.reset := by decide

/-- R23: STATUS, and a number that names no register. -/
theorem test_read :
    (nextOf (step { faulted (st [] []) with host := [.read 0] })).map (·.answers) = some [(0, 1)] ∧
    (nextOf (step { faulted (st [] []) with host := [.read 7] })).map (·.answers) = some [(7, 0)] := by decide

/-- A word placed by the host's interface is the next command. -/
theorem test_withFetchWord :
    (nextOf (step (State.reset.withFetchWord 64 0x0500000700000000))).map (·.llen) = some 7 := by decide

/-! ## Witnesses for the obligations' hypotheses -/

theorem witness_EncodeOfDecode :
    decode 0x0104004600000000 = .ok (.extract 70 4) ∧ decode 0x07000000000000FF = .ok (.wpush 0xFF) := by decide

theorem witness_DecodeFollowsOpcodeMap :
    (0x0104004600000000 : Descriptor) &&& opcodeMask (.extract 0 0) = opcodeMatch (.extract 0 0) := by decide

theorem witness_IllegalExactlyWhenNoRowMatches :
    decode 0x0A00000000000000 = .error (.reservedOp 0x0A) ∧ faultFlag (st five []) = false ∧
    faultFlag (faulted (st five [])) = true := by decide

theorem witness_ReservedCodesAreIllegal :
    (descOp 0).toNat = 0 ∧ 10 ≤ (descOp 0x0A00000000000000).toNat ∧ 10 ≤ (descOp 0xFFFFFFFFFFFFFFFF).toNat := by decide

theorem witness_MustBeZeroFields :
    ((descOp 0x0100000000000001).toNat = 1 ∧ descVal 0x0100000000000001 ≠ 0) ∧
    ((descOp 0x0301000000000000).toNat = 3 ∧ descW 0x0301000000000000 ≠ 0) ∧
    ((descOp 0x0400000100000000).toNat = 4 ∧ descOff 0x0400000100000000 ≠ 0) ∧
    ((descOp 0x0600000000000001).toNat = 6 ∧ descVal 0x0600000000000001 ≠ 0) ∧
    ((descOp 0x0900000000000001).toNat = 9 ∧ descVal 0x0900000000000001 ≠ 0) ∧
    ((descOp 0x0501000000000000).toNat = 5 ∧ descW 0x0501000000000000 ≠ 0) ∧
    ((descOp 0x0800000000000001).toNat = 8 ∧ descVal 0x0800000000000001 ≠ 0) ∧
    ((descOp 0x0700000000000100).toNat = 7 ∧ 256 ≤ (descVal 0x0700000000000100).toNat) ∧
    ((0x80 : BitVec 8).getLsbD 7 = true ∧ faultFlag (st [] []) = false) := by decide

theorem witness_StepRunsDecodedCommand :
    let s : State := { st five [] with host := [.command 0x0104002400000000, .reset] }
    s.host = .command 0x0104002400000000 :: [.reset] ∧ decode 0x0104002400000000 = .ok (.extract 36 4) ∧
    (nextOf (step s)).map (·.res) = some 0x9 := by decide

theorem witness_StepWithoutTransactionWaits :
    (st five []).host = [] := by decide

theorem witness_ReadPortAnswers :
    let s : State := { faulted (st five [1]) with host := [.read 3], res := 9 }
    s.host = .read 3 :: [] ∧ (List.finRange 8).map (readPort s) = [1, 4, 9, 5, 1, 0x0400000000000000, 0, 0] := by decide

theorem witness_ResetState :
    ({ faulted (st five [1]) with host := [.reset, .read 0] } : State).host = .reset :: [.read 0] := by decide

theorem witness_ResetErasesTheCommandBefore :
    let s : State := { st five [] with host := [.command 0x0600000000000000, .reset] }
    s.host = .command 0x0600000000000000 :: .reset :: [] ∧ (nextOf (step s)).isSome := by decide

theorem witness_FaultedStateDropsCommands :
    let s : State := { faulted (st five []) with host := [.command 0x0901000000000000] }
    faultFlag s = true ∧ (0x0901000000000000 : Descriptor) ≠ 0x0900000000000000 ∧ s.host = .command 0x0901000000000000 :: [] ∧
    faultFlag (faulted (st five [])) = true ∧
    (s.withHost [.command 0x0900000000000000]).host = .command 0x0900000000000000 :: [] ∧
    (s.withHost [.read 2]).host = .read 2 :: [] := by decide

/-- V-F8. -/
theorem witness_FaultsArePrecise :
    faultFlag (st five []) = false ∧
    (nextOf (acceptCommand 0x0120000900000000 (st five []))).map faultFlag = some true := by decide

theorem witness_CausesOfEachCommand :
    (nextOf (acceptCommand 0x0A00000000000000 (st five [1]))).map (fun t => (faultFlag t, t.err)) = some (true, 1) ∧
    (nextOf (acceptCommand 0x0121000000000000 (st five [1]))).map (fun t => (faultFlag t, t.err)) = some (true, 2) ∧
    (nextOf (acceptCommand 0x0208002100000000 (st five [1]))).map (fun t => (faultFlag t, t.err)) = some (true, 3) ∧
    (nextOf (acceptCommand 0x0400000000000000 (st five [1]))).map (fun t => (faultFlag t, t.err)) = some (true, 4) ∧
    (nextOf (acceptCommand 0x050001C100000000 (st five [1]))).map (fun t => (faultFlag t, t.err)) = some (true, 3) ∧
    (nextOf (acceptCommand 0x0700000000000080 (st five [1]))).map (fun t => (faultFlag t, t.err)) = some (true, 5) ∧
    (nextOf (acceptCommand 0x0700000000000000 { State.reset with wlen := 512 })).map (fun t => (faultFlag t, t.err)) = some (true, 6) ∧
    (nextOf (acceptCommand 0x0800000100000000 (st five [1]))).map (fun t => (faultFlag t, t.err)) = some (true, 3) := by decide

/-- V-F6, V-F26, V-F15. -/
theorem witness_LowestCauseWins :
    let s : State := { st five [] with wlen := 512 }
    faultFlag s = false ∧ 32 < (33 : BitVec 8).toNat ∧ 8 * s.llen.toNat < (100 : BitVec 16).toNat + (33 : BitVec 8).toNat ∧
    (0x80 : BitVec 8).getLsbD 7 = true ∧ s.wlen.toNat = 512 ∧ decode 0x0400000100000000 = .error (.mustBeZero 4) := by decide

theorem witness_FaultFlagChanges :
    (nextOf (transact .reset (faulted (st five [])))).map faultFlag = some false ∧
    (nextOf (transact (.command 0x0900000000000000) (faulted (st five [])))).map faultFlag = some false ∧
    faultFlag (faulted (st five [])) = true ∧ faultFlag (st five []) = false ∧
    (nextOf (transact (.command 0) (st five []))).map faultFlag = some true := by decide

/-- The range that ends at the end (V-A5), the empty one there (V-A14), and one past each (V-F5, V-F8, V-F9). -/
theorem witness_ExtractReadsField :
    let s := st five []
    s.Inv ∧ faultFlag s = false ∧
    (32 : BitVec 8).toNat ≤ 32 ∧ (8 : BitVec 16).toNat + (32 : BitVec 8).toNat ≤ 8 * s.llen.toNat ∧
    (40 : BitVec 16).toNat + (0 : BitVec 8).toNat ≤ 8 * s.llen.toNat ∧
    32 < (33 : BitVec 8).toNat ∧
    8 * s.llen.toNat < (9 : BitVec 16).toNat + (32 : BitVec 8).toNat ∧
    8 * s.llen.toNat < (41 : BitVec 16).toNat + (0 : BitVec 8).toNat := by decide

theorem witness_SetWritesField :
    let s := st [0, 0, 0, 0, 0] []
    s.Inv ∧ faultFlag s = false ∧ (32 : BitVec 8).toNat ≤ 32 ∧
    (8 : BitVec 16).toNat + (32 : BitVec 8).toNat ≤ 8 * s.llen.toNat ∧
    32 < (33 : BitVec 8).toNat ∧ 8 * s.llen.toNat < (9 : BitVec 16).toNat + (32 : BitVec 8).toNat := by decide

theorem witness_WidthValues :
    let s := st five []
    faultFlag s = false ∧ s.LengthsLegal ∧ (40 : BitVec 16).toNat ≤ 8 * s.llen.toNat ∧
    8 * s.llen.toNat < (41 : BitVec 16).toNat ∧ 32 < (33 : BitVec 8).toNat ∧ 32 < (255 : BitVec 8).toNat := by decide

theorem witness_SetThenExtract :
    let s := st [0, 0, 0, 0, 0] []
    s.Inv ∧ faultFlag s = false ∧ (32 : BitVec 8).toNat ≤ 32 ∧ (8 : BitVec 16).toNat + (32 : BitVec 8).toNat ≤ 8 * s.llen.toNat := by decide

/-- Two ranges that meet, and an empty range at 4, inside the first. -/
theorem witness_DisjointSetsCommute :
    let s := st five []
    s.Inv ∧ faultFlag s = false ∧ (8 : BitVec 8).toNat ≤ 32 ∧ (32 : BitVec 8).toNat ≤ 32 ∧
    (0 : BitVec 16).toNat + (8 : BitVec 8).toNat ≤ 8 * s.llen.toNat ∧
    (8 : BitVec 16).toNat + (32 : BitVec 8).toNat ≤ 8 * s.llen.toNat ∧
    (0 : BitVec 16).toNat + (8 : BitVec 8).toNat ≤ (8 : BitVec 16).toNat ∧
    (4 : BitVec 16).toNat + (0 : BitVec 8).toNat ≤ 8 * s.llen.toNat := by decide

theorem witness_DisjointSetKeepsExtract :
    let s := st five []
    s.Inv ∧ faultFlag s = false ∧ (8 : BitVec 8).toNat ≤ 32 ∧ (32 : BitVec 8).toNat ≤ 32 ∧
    (0 : BitVec 16).toNat + (8 : BitVec 8).toNat ≤ 8 * s.llen.toNat ∧
    (8 : BitVec 16).toNat + (32 : BitVec 8).toNat ≤ 8 * s.llen.toNat ∧
    (0 : BitVec 16).toNat + (8 : BitVec 8).toNat ≤ (8 : BitVec 16).toNat ∧
    (4 : BitVec 16).toNat + (0 : BitVec 8).toNat ≤ 8 * s.llen.toNat := by decide

theorem witness_SetIgnoresHighBits :
    (5 : BitVec 8).toNat ≤ 32 ∧ (6 : BitVec 16).toNat + (5 : BitVec 8).toNat ≤ 8 * (st five []).llen.toNat ∧
    (0x15 : BitVec 32).toNat % 2 ^ (5 : BitVec 8).toNat = (0xFFFFFFF5 : BitVec 32).toNat % 2 ^ (5 : BitVec 8).toNat := by decide

theorem witness_AlignedFieldsAreLittleEndian :
    let s := st five []
    s.Inv ∧ faultFlag s = false ∧ 4 ≤ 4 ∧ (8 : BitVec 16).toNat = 8 * 1 ∧ (32 : BitVec 8).toNat = 8 * 4 ∧
    1 + 4 ≤ s.llen.toNat ∧ ∀ j, j < 4 → s.lbuf.read (1 + j) = some (five.getD (1 + j) 0) := by decide

/-- V-A7: five bytes and the largest shift. -/
theorem witness_WindowForm :
    32 ≤ 32 ∧ 8 + 32 ≤ 8 * 5 ∧ memRead (cells five) 7 32 = 0x34F0AC68 := by decide

theorem witness_UnpackResult :
    let s := st [] (wireGroup ++ [0x7F, 0x01])
    s.Inv ∧ faultFlag s = false ∧ 0 < s.wlen.toNat / 8 ∧ 2 ≤ s.wlen.toNat % 8 := by decide

theorem witness_PackResult :
    (st byteGroup []).Inv ∧ faultFlag (st byteGroup []) = false ∧ (st byteGroup []).llen.toNat % 7 = 0 ∧
    0 < (st byteGroup []).llen.toNat / 7 ∧ (st five []).llen.toNat % 7 ≠ 0 ∧ faultFlag (st five []) = false := by decide

theorem witness_UnpackIsBitStream :
    (st [] wireGroup).Inv ∧ faultFlag (st [] wireGroup) = false ∧ ulen (st [] wireGroup).wlen.toNat = 7 := by decide

theorem witness_PackUnpackRoundTrip :
    (st byteGroup [1]).Inv ∧ faultFlag (st byteGroup [1]) = false ∧ (st byteGroup [1]).llen.toNat % 7 = 0 := by decide

theorem witness_UnpackPackRoundTrip :
    (st [1] wireGroup).Inv ∧ faultFlag (st [1] wireGroup) = false ∧ (st [1] wireGroup).wlen.toNat % 8 = 0 := by decide

/-- R87's example. -/
theorem witness_PartialGroupIgnoresHighBits :
    let s := st [] [0x7F, 0x7F]
    let s' := st [] [0x7F, 0x01]
    s.Inv ∧ s'.Inv ∧ faultFlag s = false ∧ faultFlag s' = false ∧ s.wlen = s'.wlen ∧ 1 ≤ s.wlen.toNat % 8 ∧
    (∀ i, i < s.wlen.toNat - 1 → s.wbuf.read i = s'.wbuf.read i) ∧
    s.wbuf.read (s.wlen.toNat - 1) = some 0x7F ∧ s'.wbuf.read (s.wlen.toNat - 1) = some 0x01 ∧
    ∀ c, c < s.wlen.toNat % 8 - 1 → (0x7F : Cell7).getLsbD c = (0x01 : Cell7).getLsbD c := by decide

theorem witness_PartialGroupIsNotRestored :
    (st [] [0x5E, 0x5B, 0x7A]).Inv ∧ faultFlag (st [] [0x5E, 0x5B, 0x7A]) = false ∧
    2 ≤ (st [] [0x5E, 0x5B, 0x7A]).wlen.toNat % 8 ∧
    (st [] [0x5E]).Inv ∧ faultFlag (st [] [0x5E]) = false ∧ (st [] [0x5E]).wlen.toNat % 8 = 1 := by decide

/-- Two bytes, and the three cells that depend on them. -/
theorem witness_PaddedPackUnpacksToTheBytes :
    let s := st [0xDE, 0xAD, 0, 0, 0, 0, 0] []
    let r := st [] [0x5E, 0x5B, 0x02]
    s.Inv ∧ faultFlag s = false ∧ 1 ≤ 2 % 7 ∧ s.llen.toNat = 7 * (2 / 7 + 1) ∧
    (∀ i, i < s.llen.toNat → 2 ≤ i → s.lbuf.read i = some 0) ∧
    r.Inv ∧ faultFlag r = false ∧ r.wlen.toNat = 8 * (2 / 7) + 2 % 7 + 1 ∧
    (nextOf (exec .pack s)).map (fun t => t.wbuf.take 3) = some r.wbuf := by decide

/-- V-B3, V-F16. -/
theorem witness_LclrResult :
    faultFlag (st five []) = false ∧ (448 : BitVec 16).toNat ≤ 448 ∧ 448 < (449 : BitVec 16).toNat := by decide

theorem witness_WclrResult :
    faultFlag (st [] [1]) = false ∧ decode 0x0600000000000000 = .ok .wclr := by decide

/-- V-B6, V-F19, V-F25. -/
theorem witness_WpushResult :
    faultFlag (st [] [1]) = false ∧ (0x7F : BitVec 8).getLsbD 7 = false ∧ (st [] [1]).wlen.toNat < 512 ∧
    ({ State.reset with wlen := 511 } : State).wlen.toNat < 512 ∧
    (0x80 : BitVec 8).getLsbD 7 = true ∧ ({ State.reset with wlen := 512 } : State).wlen.toNat = 512 := by decide

theorem witness_WrdResult :
    (st [] [1, 2, 3]).Inv ∧ faultFlag (st [] [1, 2, 3]) = false ∧
    (2 : BitVec 16).toNat < (st [] [1, 2, 3]).wlen.toNat ∧ (st [] [1, 2, 3]).wlen.toNat ≤ (3 : BitVec 16).toNat := by decide

theorem witness_FclrResult :
    descOp 0x0901000000000000 = 0x09 ∧ (0x0901000000000000 : Descriptor) ≠ 0x0900000000000000 ∧
    (st five [1]).Inv ∧ faultFlag (st five [1]) = false ∧ Instr.unpack ≠ .fclr ∧ faultFlag (faulted (st five [1])) = true := by decide

theorem witness_WritersOfEachRegister :
    (nextOf (exec (.extract 0 8) (st five wireGroup))).map (·.res) = some 0x12 ∧
    (nextOf (exec .unpack (st five wireGroup))).map (·.llen) = some 7 ∧
    (nextOf (exec .wclr (st five wireGroup))).map (·.wlen) = some 0 ∧
    (nextOf (exec .pack (st five wireGroup))).map (fun t => (t.status, t.err, t.einfo)) = some (1, 4, 0x0400000000000000) := by decide

theorem witness_StepKeepsInvariant :
    let s : State := { st five wireGroup with host := [.command 0x0300000000000000] }
    s.Inv ∧ (nextOf (step s)).map (·.llen) = some 7 := by decide

theorem witness_StepNeverStops :
    (faulted (st five wireGroup)).Inv := by decide

theorem witness_CellsPastLengthsUnobservable :
    let s : State := { st five [1] with lbuf := cells (five ++ [7]) }
    let s' : State := { st five [1] with wbuf := cells [1, 2] }
    s.llen = s'.llen ∧ s.wlen = s'.wlen ∧ s.res = s'.res ∧ s.status = s'.status ∧ s.err = s'.err ∧ s.einfo = s'.einfo ∧
    s.host = s'.host ∧ s.answers = s'.answers ∧ (∀ i, i < s.llen.toNat → s.lbuf.read i = s'.lbuf.read i) ∧
    (∀ i, i < s.wlen.toNat → s.wbuf.read i = s'.wbuf.read i) ∧ s ≠ s' := by decide

theorem witness_ByteAccessPseudoCommands :
    (st five []).Inv ∧ faultFlag (st five []) = false ∧ 4 < (st five []).llen.toNat ∧ 255 ≤ 255 := by decide

/-- The lengths where the clauses meet. -/
theorem witness_LengthFunctions :
    512 ≤ 512 ∧ 448 % 7 = 0 ∧ 448 ≤ 448 ∧ ulen 16 % 7 = 0 ∧ plen (ulen 16) = 16 := by decide

theorem witness_GroupMapIsBitStream :
    6 < 7 ∧ 7 < 8 ∧ unpackByte 0x0D 0x2B 6 = 0x56 ∧ packCell (fun j => byteGroup.getD j 0) 7 = 0x2B := by decide

/-- The fault of the model in the second clause: a length of 1 and nothing written, a state no run reaches. -/
theorem witness_CellsPastLengthsUnobservable_fault :
    step { State.reset with llen := 1, host := [.command 0x0108000000000000] } = .fault .unwrittenByte := by rfl

/-- R122: LCLR 448 completes from reset, LCLR 449 and WRD 0 do not. -/
theorem witness_CommandsThatCompleteFromReset :
    [0x050001C000000000, 0x050001C100000000, 0x0800000000000000].map
      (fun d => (nextOf (acceptCommand d State.reset)).map faultFlag) = [some false, some true, some true] := by decide

/-- The largest operands that fit, and the least that do not. -/
theorem witness_ListingDescriptors :
    assembleLine (.command (.set 65535 255 4294967295)) = some [0x02FFFFFFFFFFFFFF] ∧
    assembleLine (.command (.set 65536 255 4294967295)) = none ∧ assembleLine (.command (.wpush 256)) = none := by decide

/-- A reachable state other than reset: the state after LCLR 2 from reset. -/
theorem witness_ReachableStatesAreLegal :
    Reachable { st [0, 0] [] with host := [] } :=
  .step _ _ (.reset [.command 0x0500000200000000]) rfl

end Sys2Proof.Tests
end

section
/-! The scope's one statement (00_scope.md): what a step does while the host has no transaction to come. -/

namespace Sys2Proof.Machine

/-- R4 makes the host's transactions an input; with none left the port has nothing to take (log entry 2). -/
theorem takeTransaction_of_host_nil {s : State} (h : s.host = []) : takeTransaction s = .next s := by
  simp only [takeTransaction, h]

/-- Settles O10: a step is the taking of one transaction, and there is none. -/
theorem stepWithoutTransactionWaits : Obligations.StepWithoutTransactionWaits := by
  intro s hnone
  calc step s = takeTransaction s := rfl
    _ = .next s := takeTransaction_of_host_nil hnone

end Sys2Proof.Machine
end

section
/-! The round trip from the descriptor's side (R50, R53): what each arm of the decoder has found out about the four fields. -/

namespace Sys2Proof

/-- Two descriptors are equal when their fields are (R50). -/
theorem descriptor_eq_of_fields {d : Descriptor} {op w : BitVec 8} {off : BitVec 16} {val : BitVec 32}
    (hop : descOp d = op) (hw : descW d = w) (hoff : descOff d = off) (hval : descVal d = val) :
    descriptor op w off val = d := by
  rw [← hop, ← hw, ← hoff, ← hval, descriptor_fields]

theorem ifZero_eq_ok {zero : Bool} {d : Descriptor} {i j : Instr} : ifZero zero d i = .ok j ↔ zero = true ∧ i = j := by
  cases zero <;> simp [ifZero]

theorem noFields_eq_true {d : Descriptor} : noFields d = true ↔ descW d = 0 ∧ descOff d = 0 ∧ descVal d = 0 := by
  simp [noFields, and_assoc]

/-- A descriptor without operands is its command code alone. -/
theorem descriptor_of_noFields {d : Descriptor} {op : BitVec 8} (hop : descOp d = op) (h : noFields d = true) :
    descriptor op 0 0 0 = d := by
  obtain ⟨hw, hoff, hval⟩ := noFields_eq_true.1 h
  exact descriptor_eq_of_fields hop hw hoff hval

/-- A word whose high 24 bits are zero is its low byte, zero-extended (R55: the `val` of WPUSH). -/
theorem setWidth_setWidth_of_high_zero {v : BitVec 32} (h : v.extractLsb' 8 24 = 0) : (v.setWidth 8).setWidth 32 = v := by
  refine BitVec.eq_of_getLsbD_eq fun i hi => ?_
  by_cases h8 : i < 8
  · simp [h8, hi]
  · have hbit : (v.extractLsb' 8 24).getLsbD (i - 8) = v.getLsbD i := by
      simp [show i - 8 < 24 by omega, show 8 + (i - 8) = i by omega]
    rw [← hbit, h]
    simp [h8]

/-- R50, R53, R55: a descriptor that decodes to a command is that command's descriptor. -/
theorem encode_of_decode {d : Descriptor} {i : Instr} (h : decode d = .ok i) : encode i = d := by
  unfold decode at h
  split_ifs at h with hop hop hop hop hop hop hop hop hop
  · -- EXTRACT
    obtain ⟨hz, rfl⟩ := ifZero_eq_ok.1 h
    exact descriptor_eq_of_fields hop rfl rfl (by simpa using hz)
  · -- SET
    cases h
    exact descriptor_eq_of_fields hop rfl rfl rfl
  · -- UNPACK
    obtain ⟨hz, rfl⟩ := ifZero_eq_ok.1 h
    exact descriptor_of_noFields hop hz
  · -- PACK
    obtain ⟨hz, rfl⟩ := ifZero_eq_ok.1 h
    exact descriptor_of_noFields hop hz
  · -- LCLR
    obtain ⟨hz, rfl⟩ := ifZero_eq_ok.1 h
    obtain ⟨hw, hval⟩ : descW d = 0 ∧ descVal d = 0 := by simpa using hz
    exact descriptor_eq_of_fields hop hw rfl hval
  · -- WCLR
    obtain ⟨hz, rfl⟩ := ifZero_eq_ok.1 h
    exact descriptor_of_noFields hop hz
  · -- WPUSH
    obtain ⟨hz, rfl⟩ := ifZero_eq_ok.1 h
    obtain ⟨⟨hw, hoff⟩, hhigh⟩ : (descW d = 0 ∧ descOff d = 0) ∧ (descVal d).extractLsb' 8 24 = 0 := by simpa using hz
    refine descriptor_eq_of_fields hop hw hoff ?_
    rw [descByte_eq, setWidth_setWidth_of_high_zero hhigh]
  · -- WRD
    obtain ⟨hz, rfl⟩ := ifZero_eq_ok.1 h
    obtain ⟨hw, hval⟩ : descW d = 0 ∧ descVal d = 0 := by simpa using hz
    exact descriptor_eq_of_fields hop hw rfl hval
  · -- FCLR
    obtain ⟨hz, rfl⟩ := ifZero_eq_ok.1 h
    exact descriptor_of_noFields hop hz

/-- R94: FCLR is the one descriptor 0x0900000000000000. -/
theorem eq_fclr_of_decode {d : Descriptor} (h : decode d = .ok .fclr) : d = 0x0900000000000000 := by
  rw [← encode_of_decode h]
  decide

end Sys2Proof
end

section
/-! The step and the ports (10_state.md section 6): what one transaction does, said once for each kind. -/

namespace Sys2Proof.Machine

/-! ## The port takes the oldest transaction -/

@[simp] theorem transact_command (d : Descriptor) (s : State) : transact (.command d) s = acceptCommand d s := rfl
@[simp] theorem transact_read (n : Fin 8) (s : State) : transact (.read n) s = .next (s.withAnswer n (readPort s n)) := rfl
@[simp] theorem transact_reset (s : State) : transact .reset s = .next (resetBlock s) := rfl

/-- With a transaction to come, a step executes it on the state whose transactions are the remaining ones (R22). -/
theorem step_of_host_cons {s : State} {a : HostAction} {rest : List HostAction} (h : s.host = a :: rest) :
    step s = transact a (s.withHost rest) := by
  simp only [step, takeTransaction, h]

/-- R4: everything a step can do when it answers a next state. It waits unchanged, or it is the oldest transaction of `host`. -/
theorem step_next {s t : State} (h : step s = .next t) :
    t = s ∨ ∃ a rest, s.host = a :: rest ∧ transact a (s.withHost rest) = .next t := by
  cases hhost : s.host with
  | nil =>
    rw [stepWithoutTransactionWaits s hhost] at h
    cases h
    exact .inl rfl
  | cons a rest => exact .inr ⟨a, rest, rfl, by rw [← step_of_host_cons hhost, h]⟩

/-! ## The command port -/

theorem acceptCommand_of_decode {d : Descriptor} {i : Instr} (h : decode d = .ok i) (s : State) :
    acceptCommand d s = exec i s := by
  simp only [acceptCommand, h]

theorem acceptCommand_of_illegal {d : Descriptor} {e : Illegal} (h : decode d = .error e) (s : State) :
    acceptCommand d s = .next (rejectIllegal d s) := by
  simp only [acceptCommand, h]

/-- R106: while F = 1 an illegal descriptor is dropped. -/
theorem rejectIllegal_dropped {s : State} (d : Descriptor) (hF : faultFlag s = true) : rejectIllegal d s = s := by
  simp [rejectIllegal, hF]

/-- R61 step 2: with F = 0 an illegal descriptor enters a fault. -/
theorem rejectIllegal_raises {s : State} (d : Descriptor) (hF : faultFlag s = false) :
    rejectIllegal d s = takeFault .illegalCmd d s := by
  simp [rejectIllegal, hF]

/-- R61, R104, R106: everything a descriptor can do when it answers a next state. It is dropped while F = 1; it faults with itself
in EINFO; or it is a command that completes. -/
theorem acceptCommand_next {d : Descriptor} {s t : State} (h : acceptCommand d s = .next t) :
    (faultFlag s = true ∧ t = s) ∨
    (faultFlag s = false ∧ ∃ c, t = takeFault c d s) ∨
    (∃ i, decode d = .ok i ∧ (i = .fclr ∨ faultFlag s = false) ∧ checkOf i s = none ∧ needOf i s = none ∧
      t = effectOf i s) := by
  cases hd : decode d with
  | error e =>
    rw [acceptCommand_of_illegal hd] at h
    cases h
    cases hF : faultFlag s with
    | true => exact .inl ⟨rfl, rejectIllegal_dropped d hF⟩
    | false => exact .inr (.inl ⟨rfl, .illegalCmd, rejectIllegal_raises d hF⟩)
  | ok i =>
    rw [acceptCommand_of_decode hd] at h
    rcases exec_next h with ⟨-, hF, ht⟩ | ⟨-, hF, c, -, ht⟩ | ⟨hrun, hc, hn, ht⟩
    · exact .inl ⟨hF, ht⟩
    · exact .inr (.inl ⟨hF, c, by rw [ht, encode_of_decode hd]⟩)
    · exact .inr (.inr ⟨i, rfl, hrun, hc, hn, ht⟩)

/-! ## STATUS and the read port -/

/-- STATUS reads as F, bits 7:1 as 0 (R17). -/
theorem readStatus_eq (s : State) : readStatus s = statusOf (faultFlag s) := by
  simp [readStatus, faultFlag, statusOf, BitVec.and_one_eq_setWidth_ofBool_getLsbD]

theorem toNat_readStatus (s : State) : (readStatus s).toNat = (faultFlag s).toNat := by
  rw [readStatus_eq]
  cases faultFlag s <;> rfl

section ReadPort
variable (s : State)

theorem readPort_status : readPort s 0 = (readStatus s).setWidth 64 := rfl
theorem readPort_err : readPort s 1 = s.err.setWidth 64 := rfl
theorem readPort_res : readPort s 2 = s.res.setWidth 64 := rfl
theorem readPort_llen : readPort s 3 = s.llen.setWidth 64 := rfl
theorem readPort_wlen : readPort s 4 = s.wlen.setWidth 64 := rfl
theorem readPort_einfo : readPort s 5 = s.einfo := rfl
theorem readPort_noRegister : readPort s 6 = 0 ∧ readPort s 7 = 0 := ⟨rfl, rfl⟩

end ReadPort

/-! ## What no command touches: the host's side -/

@[simp] theorem effectOf_host (i : Instr) (s : State) : (effectOf i s).host = s.host := by cases i <;> rfl

@[simp] theorem effectOf_answers (i : Instr) (s : State) : (effectOf i s).answers = s.answers := by cases i <;> rfl

/-- A descriptor on the command port leaves the host's side as it was. -/
theorem acceptCommand_keeps_host {d : Descriptor} {s t : State} (h : acceptCommand d s = .next t) :
    t.host = s.host ∧ t.answers = s.answers := by
  rcases acceptCommand_next h with ⟨-, rfl⟩ | ⟨-, c, rfl⟩ | ⟨i, -, -, -, -, rfl⟩ <;> simp

/-- The state after a reset depends on the host's side alone (R24). -/
theorem resetBlock_congr {s t : State} (hhost : s.host = t.host) (hans : s.answers = t.answers) :
    resetBlock s = resetBlock t := by
  simp only [resetBlock, hhost, hans]

/-! ## The statements -/

/-- Settles O9: the step takes the descriptor off the port, and the command port runs what it decodes to. -/
theorem stepRunsDecodedCommand : Obligations.StepRunsDecodedCommand := by
  intro s d i rest hhost hd
  rw [step_of_host_cons hhost, transact_command, acceptCommand_of_decode hd]
  rfl

/-- Settles O11: one case for each of the eight register numbers. -/
theorem readPortAnswers : Obligations.ReadPortAnswers := by
  intro s n rest hhost
  refine ⟨readPort (s.withHost rest) n, step_of_host_cons hhost, ?_, ?_, ?_, ?_, ?_, ?_, ?_⟩
  · rintro rfl
    rw [readPort_status, BitVec.toNat_setWidth_of_le (by decide), toNat_readStatus, faultFlag_withHost]
  · rintro rfl
    rw [readPort_err, BitVec.toNat_setWidth_of_le (by decide), State.withHost_err]
  · rintro rfl
    rw [readPort_res, BitVec.toNat_setWidth_of_le (by decide), State.withHost_res]
  · rintro rfl
    rw [readPort_llen, BitVec.toNat_setWidth_of_le (by decide), State.withHost_llen]
  · rintro rfl
    rw [readPort_wlen, BitVec.toNat_setWidth_of_le (by decide), State.withHost_wlen]
  · rintro rfl
    rw [readPort_einfo, State.withHost_einfo]
  · rintro (rfl | rfl)
    · exact (readPort_noRegister _).1
    · exact (readPort_noRegister _).2

/-- Settles O12: the step is the reset itself, whose registers are those of `State.reset`. -/
theorem resetState : Obligations.ResetState := by
  refine ⟨fun s rest hhost => ⟨resetBlock (s.withHost rest), step_of_host_cons hhost, ?_⟩, ?_⟩
  · simp
  · simp [State.reset]

/-- Settles O13: the command before the reset leaves the host's side as it was, and a reset keeps nothing else. -/
theorem resetErasesTheCommandBefore : Obligations.ResetErasesTheCommandBefore := by
  intro s t d rest hhost hstep
  rw [step_of_host_cons hhost, transact_command] at hstep
  obtain ⟨htHost, htAnswers⟩ := acceptCommand_keeps_host hstep
  have hafter : step t = .next (resetBlock (t.withHost rest)) := step_of_host_cons htHost
  have halone : step { s with host := .reset :: rest } = .next (resetBlock (s.withHost rest)) := rfl
  have hsame : resetBlock (t.withHost rest) = resetBlock (s.withHost rest) := resetBlock_congr rfl htAnswers
  rw [hafter, halone, hsame]

end Sys2Proof.Machine
end

section
/-! Which transaction writes what (R10 to R13, R17 to R19): the effect of a command, register by register. -/

namespace Sys2Proof.Machine

/-! ## The effect of a command on each register and buffer -/

section Frame
variable {i : Instr} {s : State}

/-- R11: the writers of RES. -/
theorem writer_of_res (h : (effectOf i s).res ≠ s.res) : (∃ off w, i = .extract off w) ∨ ∃ idx, i = .wrd idx := by
  cases i with
  | extract off w => exact .inl ⟨off, w, rfl⟩
  | wrd idx => exact .inr ⟨idx, rfl⟩
  | _ => exact absurd rfl h

/-- R12: the writers of LLEN. -/
theorem writer_of_llen (h : (effectOf i s).llen ≠ s.llen) : i = .unpack ∨ ∃ n, i = .lclr n := by
  cases i with
  | unpack => exact .inl rfl
  | lclr n => exact .inr ⟨n, rfl⟩
  | _ => exact absurd rfl h

/-- R13: the writers of WLEN. -/
theorem writer_of_wlen (h : (effectOf i s).wlen ≠ s.wlen) : i = .pack ∨ i = .wclr ∨ ∃ b, i = .wpush b := by
  cases i with
  | pack => exact .inl rfl
  | wclr => exact .inr (.inl rfl)
  | wpush b => exact .inr (.inr ⟨b, rfl⟩)
  | _ => exact absurd rfl h

/-- R14: the writers of the logical buffer. -/
theorem writer_of_lbuf (h : (effectOf i s).lbuf ≠ s.lbuf) :
    (∃ off w val, i = .set off w val) ∨ i = .unpack ∨ ∃ n, i = .lclr n := by
  cases i with
  | set off w val => exact .inl ⟨off, w, val, rfl⟩
  | unpack => exact .inr (.inl rfl)
  | lclr n => exact .inr (.inr ⟨n, rfl⟩)
  | _ => exact absurd rfl h

/-- R15: the writers of the wire buffer. -/
theorem writer_of_wbuf (h : (effectOf i s).wbuf ≠ s.wbuf) : i = .pack ∨ ∃ b, i = .wpush b := by
  cases i with
  | pack => exact .inl rfl
  | wpush b => exact .inr ⟨b, rfl⟩
  | _ => exact absurd rfl h

/-- R17 to R19: of the completing commands FCLR alone writes the fault registers. -/
theorem effectOf_keeps_faultRegs (hi : i ≠ .fclr) :
    (effectOf i s).status = s.status ∧ (effectOf i s).err = s.err ∧ (effectOf i s).einfo = s.einfo := by
  cases i with
  | fclr => exact absurd rfl hi
  | _ => exact ⟨rfl, rfl, rfl⟩

/-- A command that completes ends with F = 0: it ran with F = 0 and left it, or it is FCLR. -/
theorem faultFlag_effectOf (hrun : i = .fclr ∨ faultFlag s = false) : faultFlag (effectOf i s) = false := by
  by_cases hi : i = .fclr
  · subst hi
    exact faultFlag_returnFromFault s
  · have hF := hrun.resolve_left hi
    have hstatus := (effectOf_keeps_faultRegs (s := s) hi).1
    rw [← hF]
    simp only [faultFlag, readStatus, hstatus]

end Frame

/-! ## The statements -/

/-- Settles O43: a dropped command changes nothing, a faulting one the fault registers, a completing one what its effect writes. -/
theorem writersOfEachRegister : Obligations.WritersOfEachRegister := by
  intro i s t h
  rcases exec_next h with ⟨-, -, rfl⟩ | ⟨-, hF, c, -, rfl⟩ | ⟨-, -, -, rfl⟩
  · simp
  · simp [hF]
  · refine ⟨writer_of_res, writer_of_llen, writer_of_wlen, writer_of_lbuf, writer_of_wbuf, fun hregs => .inl ?_,
      effectOf_host i s, effectOf_answers i s⟩
    by_contra hi
    obtain ⟨hstatus, herr, heinfo⟩ := effectOf_keeps_faultRegs (s := s) hi
    simp [hstatus, herr, heinfo] at hregs

/-- F falls by FCLR and by reset only (R17). -/
theorem faultFlag_falls {a : HostAction} {s t : State} (h : transact a s = .next t) (hs : faultFlag s = true)
    (ht : faultFlag t = false) : a = .reset ∨ a = .command 0x0900000000000000 := by
  cases a with
  | reset => exact .inl rfl
  | read n =>
    cases h
    simp [hs] at ht
  | command d =>
    rcases acceptCommand_next h with ⟨-, rfl⟩ | ⟨hF, -⟩ | ⟨i, hd, hrun, -⟩
    · simp [hs] at ht
    · simp [hs] at hF
    · have hi : i = .fclr := hrun.resolve_right (by simp [hs])
      subst hi
      exact .inr (by rw [eq_fclr_of_decode hd])

/-- F rises by a descriptor that faults only, which changes nothing but the fault registers (R17, R105). -/
theorem faultFlag_rises {a : HostAction} {s t : State} (h : transact a s = .next t) (hs : faultFlag s = false)
    (ht : faultFlag t = true) : ∃ d, a = .command d ∧ t = { s with status := 1, err := t.err, einfo := d } := by
  cases a with
  | reset =>
    cases h
    simp at ht
  | read n =>
    cases h
    simp [hs] at ht
  | command d =>
    rcases acceptCommand_next h with ⟨hF, -⟩ | ⟨-, c, rfl⟩ | ⟨i, -, hrun, -, -, rfl⟩
    · simp [hs] at hF
    · exact ⟨d, rfl, rfl⟩
    · simp [faultFlag_effectOf hrun] at ht

/-- Settles O18: how F falls, how it rises, and that STATUS reads as F. -/
theorem faultFlagChanges : Obligations.FaultFlagChanges := by
  intro a s t h
  refine ⟨faultFlag_falls h, faultFlag_rises h, ?_⟩
  rw [toNat_readStatus]
  exact Bool.toNat_le _

end Sys2Proof.Machine
end

section
/-! The invariant of R21: the reset state has it, each update of the state keeps it, and so does every step. -/

namespace Sys2Proof.Machine

/-! ## The length functions stay inside the capacities (R84) -/

theorem ulen_le_448 {n : Nat} (h : n ≤ 512) : ulen n ≤ 448 := by
  unfold ulen
  split <;> omega

theorem plen_le_512 {n : Nat} (h : n ≤ 448) : plen n ≤ 512 := by
  unfold plen
  omega

/-- A length within a capacity is read back from its register as it was written. -/
theorem toNat_length {n : Nat} (h : n ≤ 512) : (BitVec.ofNat 16 n).toNat = n := by
  rw [BitVec.toNat_ofNat, Nat.mod_eq_of_lt (by omega)]

/-- A length register holds at most the number written into it: it keeps the low 16 bits. -/
theorem toNat_length_le (n : Nat) : (BitVec.ofNat 16 n).toNat ≤ n := by
  rw [BitVec.toNat_ofNat]
  exact Nat.mod_le _ _

/-! ## Each update of the state keeps the invariant -/

section Updates
variable {s : State}

theorem State.Inv.withHost (h : s.Inv) (rest : List HostAction) : (s.withHost rest).Inv := h

theorem State.Inv.withAnswer (h : s.Inv) (n : Fin 8) (v : BitVec 64) : (s.withAnswer n v).Inv := h

theorem State.Inv.withRes (h : s.Inv) (v : BitVec 32) : (s.withRes v).Inv := h

/-- A MemWrite inside the logical buffer leaves every byte below LLEN written and touches none past the capacity. -/
theorem State.Inv.withLbuf_memWrite (h : s.Inv) {k w : Nat} (val : BitVec 32) (hr : k + w ≤ 8 * s.llen.toNat) :
    (s.withLbuf (memWrite s.lbuf k val w)).Inv := by
  have hllen := h.llen_le
  obtain ⟨⟨hlwf, hwwf⟩, hlengths, ⟨hlbelow, hwbelow⟩, ⟨hlheld, hwheld⟩, hregs⟩ := h
  exact ⟨⟨wf_memWrite _ _ _ _ hlwf, hwwf⟩, hlengths,
    ⟨below_memWrite _ _ _ _ _ hlbelow (by simp only [lBytes_eq]; omega), hwbelow⟩,
    ⟨fun i hi => isSome_read_memWrite _ _ _ _ _ (hlheld i hi), hwheld⟩, hregs⟩

/-- A logical buffer written whole, within the capacity. -/
theorem State.Inv.withLogical (h : s.Inv) {n : Nat} (hn : n ≤ 448) (f : Nat → BitVec 8) : (s.withLogical n f).Inv := by
  obtain ⟨⟨hlwf, hwwf⟩, ⟨-, hwlen⟩, ⟨hlbelow, hwbelow⟩, ⟨-, hwheld⟩, hregs⟩ := h
  have hlen : (s.withLogical n f).llen.toNat = n := toNat_length (by omega)
  refine ⟨⟨Memory.wf_fill _ _ _ hlwf, hwwf⟩, ⟨by rw [hlen]; exact hn, hwlen⟩,
    ⟨Memory.below_fill _ _ hlbelow hn, hwbelow⟩, ⟨?_, hwheld⟩, hregs⟩
  rw [hlen]
  exact Memory.holds_fill _ _ _

/-- A wire buffer written whole, within the capacity. -/
theorem State.Inv.withWire (h : s.Inv) {n : Nat} (hn : n ≤ 512) (f : Nat → BitVec 7) : (s.withWire n f).Inv := by
  obtain ⟨⟨hlwf, hwwf⟩, ⟨hllen, -⟩, ⟨hlbelow, hwbelow⟩, ⟨hlheld, -⟩, hregs⟩ := h
  have hlen : (s.withWire n f).wlen.toNat = n := toNat_length hn
  refine ⟨⟨hlwf, Memory.wf_fill _ _ _ hwwf⟩, ⟨hllen, by rw [hlen]; exact hn⟩,
    ⟨hlbelow, Memory.below_fill _ _ hwbelow hn⟩, ⟨hlheld, ?_⟩, hregs⟩
  rw [hlen]
  exact Memory.holds_fill _ _ _

/-- A cell appended to a wire buffer that is not full. -/
theorem State.Inv.withCell (h : s.Inv) (hw : s.wlen.toNat < 512) (c : BitVec 7) : (s.withCell c).Inv := by
  obtain ⟨⟨hlwf, hwwf⟩, ⟨hllen, -⟩, ⟨hlbelow, hwbelow⟩, ⟨hlheld, hwheld⟩, hregs⟩ := h
  have hlen : (s.withCell c).wlen.toNat = s.wlen.toNat + 1 := toNat_length hw
  refine ⟨⟨hlwf, Memory.wf_write _ _ _ hwwf⟩, ⟨hllen, by rw [hlen]; exact hw⟩,
    ⟨hlbelow, Memory.below_write _ _ hwbelow hw⟩, ⟨hlheld, fun i hi => ?_⟩, hregs⟩
  rw [hlen] at hi
  rw [State.withCell_wbuf, Memory.read_write]
  split
  · rfl
  · exact hwheld i (by omega)

/-- An emptied wire buffer. -/
theorem State.Inv.withWlen_zero (h : s.Inv) : (s.withWlen 0).Inv := by
  obtain ⟨hwf, ⟨hllen, -⟩, hbelow, ⟨hlheld, -⟩, hregs⟩ := h
  exact ⟨hwf, ⟨hllen, Nat.zero_le _⟩, hbelow, ⟨hlheld, fun i hi => absurd hi (Nat.not_lt_zero i)⟩, hregs⟩

/-- Fault registers that agree with each other as R21 asks. -/
theorem State.Inv.withFaultRegs (h : s.Inv) {f : Bool} {code : BitVec 8} {d : Descriptor} (hcode : f = false ↔ code = 0)
    (hinfo : f = false → d = 0) (hle : code.toNat ≤ 6) : (s.withFaultRegs f code d).Inv := by
  obtain ⟨hwf, hlengths, hbelow, hheld, -, -⟩ := h
  have hF := faultFlag_withFaultRegs s f code d
  refine ⟨hwf, hlengths, hbelow, hheld, ?_, ?_, ?_, hle⟩
  · rw [State.StatusLegal, hF, State.withFaultRegs_status]
  · rw [hF]
    exact hcode
  · rw [hF]
    exact hinfo

/-- R104: a fault's registers agree, since every cause code is at least 1. -/
theorem State.Inv.takeFault (h : s.Inv) (c : Cause) (d : Descriptor) : (takeFault c d s).Inv := by
  obtain ⟨hpos, hle⟩ := code_bounds c
  have hcode : c.code ≠ 0 := by
    intro h0
    rw [h0] at hpos
    exact absurd hpos (by decide)
  exact h.withFaultRegs (by simpa using hcode) (by simp) hle

/-- R94: FCLR's registers are all 0. -/
theorem State.Inv.returnFromFault (h : s.Inv) : (returnFromFault s).Inv :=
  h.withFaultRegs (by simp) (by simp) (by decide)

end Updates

/-! ## Reset, every command, every transaction -/

/-- R21, R24: nothing is written, the lengths and the fault registers are 0. -/
theorem reset_inv : State.reset.Inv := by decide

/-- A reset leaves the reset state but for the host's side, of which the invariant does not speak. -/
theorem resetBlock_inv (s : State) : (resetBlock s).Inv := reset_inv

/-- A command whose check passes keeps the invariant by its effect. -/
theorem State.Inv.effect {s : State} (h : s.Inv) {i : Instr} (hc : checkOf i s = none) : (effectOf i s).Inv := by
  cases i with
  | extract off w => exact h.withRes _
  | set off w val =>
    obtain ⟨-, hr⟩ := (accessCheck_eq_none _ _ _).1 hc
    exact h.withLbuf_memWrite val hr
  | unpack => exact h.withLogical (ulen_le_448 h.wlen_le) _
  | pack => exact h.withWire (plen_le_512 h.llen_le) _
  | lclr n => exact h.withLogical ((lclrCheck_eq_none n).1 hc) _
  | wclr => exact h.withWlen_zero
  | wpush b =>
    obtain ⟨-, hfull⟩ := (wpushCheck_eq_none _ _).1 hc
    exact h.withCell (Nat.lt_of_le_of_ne h.wlen_le hfull) _
  | wrd idx => exact h.withRes _
  | fclr => exact h.returnFromFault

/-- One transaction keeps the invariant. -/
theorem transact_keeps_inv {a : HostAction} {s t : State} (hs : s.Inv) (h : transact a s = .next t) : t.Inv := by
  cases a with
  | reset =>
    cases h
    exact resetBlock_inv s
  | read n =>
    cases h
    exact hs.withAnswer n _
  | command d =>
    rcases acceptCommand_next h with ⟨-, rfl⟩ | ⟨-, c, rfl⟩ | ⟨i, -, -, hc, -, rfl⟩
    · exact hs
    · exact hs.takeFault c d
    · exact hs.effect hc

/-! ## Progress under the invariant (R112) -/

/-- R106: while F = 1 every command but FCLR is dropped. -/
theorem exec_dropped {i : Instr} {s : State} (hi : i ≠ .fclr) (hF : faultFlag s = true) : exec i s = .next s := by
  rw [exec_eq_runCommand i hi, runCommand_dropped hF]

/-- Under the invariant every command answers a next state: it is dropped, it faults, or it has all it needs. -/
theorem State.Inv.exec_progress {s : State} (h : s.Inv) (i : Instr) : ∃ t, exec i s = .next t := by
  by_cases hi : i = .fclr
  · subst hi
    exact ⟨_, rfl⟩
  · cases hF : faultFlag s with
    | true => exact ⟨s, exec_dropped hi hF⟩
    | false =>
      cases hc : checkOf i s with
      | some c => exact ⟨_, exec_raises hF hc⟩
      | none => exact ⟨_, exec_completes hF hc (h.needOf hc)⟩

/-- Under the invariant every transaction answers a next state. -/
theorem State.Inv.transact_progress {s : State} (h : s.Inv) (a : HostAction) : ∃ t, transact a s = .next t := by
  cases a with
  | reset => exact ⟨_, transact_reset s⟩
  | read n => exact ⟨_, transact_read n s⟩
  | command d =>
    rw [transact_command]
    cases hd : decode d with
    | error e => exact ⟨_, acceptCommand_of_illegal hd s⟩
    | ok i =>
      rw [acceptCommand_of_decode hd]
      exact h.exec_progress i

/-- Under the invariant the step answers a next state. -/
theorem State.Inv.step_progress {s : State} (h : s.Inv) : ∃ t, step s = .next t := by
  cases hhost : s.host with
  | nil => exact ⟨s, stepWithoutTransactionWaits s hhost⟩
  | cons a rest =>
    rw [step_of_host_cons hhost]
    exact (h.withHost rest).transact_progress a

/-! ## The statements -/

/-- Settles O45: a waiting step changes nothing, and every transaction keeps the invariant. -/
theorem stepKeepsInvariant : Obligations.StepKeepsInvariant := by
  intro s t hs h
  rcases step_next h with rfl | ⟨a, rest, -, ht⟩
  · exact hs
  · exact transact_keeps_inv (hs.withHost rest) ht

/-- Settles O44: the reset state has the invariant, which does not speak of the transactions to come. -/
theorem resetHasInvariant : Obligations.ResetHasInvariant := fun h => reset_inv.withHost h

/-- Every reachable state has the invariant, by induction on the run. -/
theorem Reachable.inv {s : State} (h : Reachable s) : s.Inv := by
  induction h with
  | reset hostActions => exact resetHasInvariant hostActions
  | step s t _ hstep ih => exact stepKeepsInvariant s t ih hstep

/-- Settles O47: reachable states have the invariant, and from a state that has it the step answers a next state. -/
theorem reachableStatesAreLegal : Obligations.ReachableStatesAreLegal :=
  fun _ h => ⟨h.inv, h.inv.step_progress⟩

end Sys2Proof.Machine
end

section
/-! Cells at or past the lengths are unobservable (R20): two states that agree below the lengths step alike. Each check, access and
effect is shown to depend on the buffers below the lengths only. -/

namespace Sys2Proof.Machine

/-! ## Outcomes that cannot be told apart -/

/-- The outcome `o'` follows `o`: the same fault of the model, or next states that agree below the lengths. -/
def Alike (o o' : Host.Outcome State Fault Refusal) : Prop :=
  (∀ t, o = .next t → ∃ t', o' = .next t' ∧ t.SameVisible t') ∧ (∀ f, o = .fault f → o' = .fault f)

theorem alike_next {t t' : State} (h : t.SameVisible t') : Alike (.next t) (.next t') := by
  refine ⟨fun u hu => ?_, fun f hf => by cases hf⟩
  cases hu
  exact ⟨t', rfl, h⟩

/-- The same access, and effects that agree where it is no fault. -/
theorem alike_unlessFault {need need' : Option Fault} {t t' : State} (hneed : need = need')
    (h : need = none → t.SameVisible t') : Alike (unlessFault need t) (unlessFault need' t') := by
  subst hneed
  cases need with
  | none => exact alike_next (h rfl)
  | some f => exact ⟨fun u hu => (by cases hu), fun _ hf => hf⟩

/-! ## Reads of the buffers below a length -/

theorem Memory.at_congr {w : Nat} {m m' : Memory w} {a : Nat} (h : m.read a = m'.read a) : m.at a = m'.at a := by
  simp only [Memory.at, h]

/-- Whether a run of indices has values depends on those indices only. -/
theorem Memory.all_isSome_congr {w : Nat} {m m' : Memory w} {first count : Nat}
    (h : ∀ i, i < count → m.read (first + i) = m'.read (first + i)) :
    ((List.range count).all fun i => (m.read (first + i)).isSome) =
      (List.range count).all fun i => (m'.read (first + i)).isSome := by
  rw [Bool.eq_iff_iff]
  simp only [List.all_eq_true, List.mem_range]
  exact forall₂_congr fun i hi => by rw [h i hi]

/-- A bit below `len` bytes depends on those bytes only (R31). -/
theorem lbit_congr {m m' : Memory 8} {len k : Nat} (h : ∀ i, i < len → m.read i = m'.read i) (hk : k < 8 * len) :
    lbit m k = lbit m' k := by
  rw [lbit, lbit, Memory.at_congr (h (k / 8) (by omega))]

/-- MemWrite carries agreement below `len` bytes over, whatever it writes (R34). -/
theorem read_memWrite_congr {m m' : Memory 8} {len : Nat} (h : ∀ i, i < len → m.read i = m'.read i) (k : Nat)
    (v : BitVec 32) (n i : Nat) (hi : i < len) : (memWrite m k v n).read i = (memWrite m' k v n).read i := by
  induction n with
  | zero => exact h i hi
  | succ n ih =>
    simp only [memWrite, writeBit, Memory.read_write]
    split
    · next hbyte => rw [← hbyte, Memory.at_congr ih]
    · exact ih

/-- Two fills with the same values agree below the length that a 16-bit register keeps of their number. -/
theorem read_fill_congr {w : Nat} (m m' : Memory w) {n : Nat} {f g : Nat → BitVec w} (hfg : ∀ i, i < n → f i = g i)
    (i : Nat) (hi : i < (BitVec.ofNat 16 n).toNat) : (m.fill n f).read i = (m'.fill n g).read i := by
  have hin : i < n := Nat.lt_of_lt_of_le hi (toNat_length_le n)
  simp only [Memory.read_fill, if_pos hin, hfg i hin]

/-- R80: the unpacked bytes depend on the cells below WLEN only. -/
theorem unpackedByte_congr_below {m m' : Memory 7} {len i : Nat} (h : ∀ a, a < len → m.read a = m'.read a)
    (hi : i < ulen len) : unpackedByte m i = unpackedByte m' i := by
  have hcells : 8 * (i / 7) + i % 7 + 1 < len := by
    unfold ulen at hi
    split at hi <;> omega
  exact unpackedByte_congr (Memory.at_congr (h _ (by omega))) (Memory.at_congr (h _ hcells))

/-- R81: the packed cells depend on the bytes below LLEN only. -/
theorem packedCell_congr_below {m m' : Memory 8} {len i : Nat} (h : ∀ a, a < len → m.read a = m'.read a)
    (hi : i < plen len) : packedCell m i = packedCell m' i := by
  unfold plen at hi
  exact packedCell_congr fun j hj => Memory.at_congr (h _ (by omega))

/-! ## Each update of two states that agree -/

section Updates
variable {s s' : State}

theorem State.SameVisible.faultFlag (h : s.SameVisible s') : faultFlag s = faultFlag s' := by
  obtain ⟨-, -, -, hstatus, -⟩ := h
  simp only [Machine.faultFlag, readStatus, hstatus]

theorem State.SameVisible.readPort (h : s.SameVisible s') (n : Fin 8) : readPort s n = readPort s' n := by
  obtain ⟨hllen, hwlen, hres, hstatus, herr, heinfo, -⟩ := h
  simp only [Machine.readPort, readStatus, hllen, hwlen, hres, hstatus, herr, heinfo]

theorem State.SameVisible.withHost (h : s.SameVisible s') (rest : List HostAction) :
    (s.withHost rest).SameVisible (s'.withHost rest) := by
  obtain ⟨hllen, hwlen, hres, hstatus, herr, heinfo, -, hanswers, hlbuf, hwbuf⟩ := h
  exact ⟨hllen, hwlen, hres, hstatus, herr, heinfo, rfl, hanswers, hlbuf, hwbuf⟩

theorem State.SameVisible.withAnswer (h : s.SameVisible s') (n : Fin 8) (v : BitVec 64) :
    (s.withAnswer n v).SameVisible (s'.withAnswer n v) := by
  obtain ⟨hllen, hwlen, hres, hstatus, herr, heinfo, hhost, hanswers, hlbuf, hwbuf⟩ := h
  exact ⟨hllen, hwlen, hres, hstatus, herr, heinfo, hhost, congrArg (List.cons (n, v)) hanswers, hlbuf, hwbuf⟩

theorem State.SameVisible.withRes (h : s.SameVisible s') (v : BitVec 32) : (s.withRes v).SameVisible (s'.withRes v) := by
  obtain ⟨hllen, hwlen, -, hstatus, herr, heinfo, hhost, hanswers, hlbuf, hwbuf⟩ := h
  exact ⟨hllen, hwlen, rfl, hstatus, herr, heinfo, hhost, hanswers, hlbuf, hwbuf⟩

theorem State.SameVisible.withFaultRegs (h : s.SameVisible s') (f : Bool) (code : BitVec 8) (d : Descriptor) :
    (s.withFaultRegs f code d).SameVisible (s'.withFaultRegs f code d) := by
  obtain ⟨hllen, hwlen, hres, -, -, -, hhost, hanswers, hlbuf, hwbuf⟩ := h
  exact ⟨hllen, hwlen, hres, rfl, rfl, rfl, hhost, hanswers, hlbuf, hwbuf⟩

theorem State.SameVisible.withLbuf_memWrite (h : s.SameVisible s') (k : Nat) (v : BitVec 32) (n : Nat) :
    (s.withLbuf (memWrite s.lbuf k v n)).SameVisible (s'.withLbuf (memWrite s'.lbuf k v n)) := by
  obtain ⟨hllen, hwlen, hres, hstatus, herr, heinfo, hhost, hanswers, hlbuf, hwbuf⟩ := h
  exact ⟨hllen, hwlen, hres, hstatus, herr, heinfo, hhost, hanswers, read_memWrite_congr hlbuf k v n, hwbuf⟩

theorem State.SameVisible.withLogical (h : s.SameVisible s') (n : Nat) {f g : Nat → BitVec 8}
    (hfg : ∀ i, i < n → f i = g i) : (s.withLogical n f).SameVisible (s'.withLogical n g) := by
  obtain ⟨-, hwlen, hres, hstatus, herr, heinfo, hhost, hanswers, -, hwbuf⟩ := h
  exact ⟨rfl, hwlen, hres, hstatus, herr, heinfo, hhost, hanswers, read_fill_congr _ _ hfg, hwbuf⟩

theorem State.SameVisible.withWire (h : s.SameVisible s') (n : Nat) {f g : Nat → BitVec 7}
    (hfg : ∀ i, i < n → f i = g i) : (s.withWire n f).SameVisible (s'.withWire n g) := by
  obtain ⟨hllen, -, hres, hstatus, herr, heinfo, hhost, hanswers, hlbuf, -⟩ := h
  exact ⟨hllen, rfl, hres, hstatus, herr, heinfo, hhost, hanswers, hlbuf, read_fill_congr _ _ hfg⟩

/-- The appended cell stands at the old WLEN in both, and the cells before it agree. -/
theorem State.SameVisible.withCell (h : s.SameVisible s') (c : BitVec 7) : (s.withCell c).SameVisible (s'.withCell c) := by
  obtain ⟨hllen, hwlen, hres, hstatus, herr, heinfo, hhost, hanswers, hlbuf, hwbuf⟩ := h
  refine ⟨hllen, by simp only [State.withCell_wlen, hwlen], hres, hstatus, herr, heinfo, hhost, hanswers, hlbuf,
    fun i hi => ?_⟩
  have hle : i < s.wlen.toNat + 1 := Nat.lt_of_lt_of_le hi (toNat_length_le _)
  simp only [State.withCell_wbuf, ← hwlen, Memory.read_write]
  split
  · rfl
  · exact hwbuf i (by omega)

theorem State.SameVisible.withWlen_zero (h : s.SameVisible s') : (s.withWlen 0).SameVisible (s'.withWlen 0) := by
  obtain ⟨hllen, -, hres, hstatus, herr, heinfo, hhost, hanswers, hlbuf, -⟩ := h
  exact ⟨hllen, rfl, hres, hstatus, herr, heinfo, hhost, hanswers, hlbuf, fun i hi => absurd hi (Nat.not_lt_zero i)⟩

theorem State.SameVisible.refl (s : State) : s.SameVisible s :=
  ⟨rfl, rfl, rfl, rfl, rfl, rfl, rfl, rfl, fun _ _ => rfl, fun _ _ => rfl⟩

theorem State.SameVisible.resetBlock (h : s.SameVisible s') : (resetBlock s).SameVisible (resetBlock s') := by
  obtain ⟨-, -, -, -, -, -, hhost, hanswers, -, -⟩ := h
  rw [resetBlock_congr hhost hanswers]
  exact State.SameVisible.refl _

end Updates

/-! ## Checks, accesses and effects of two states that agree -/

section Commands
variable {s s' : State}

/-- The checks read the lengths and the operands only. -/
theorem checkOf_congr (h : s.SameVisible s') (i : Instr) : checkOf i s = checkOf i s' := by
  obtain ⟨hllen, hwlen, -⟩ := h
  cases i <;> simp only [checkOf, accessCheck, packCheck, wpushCheck, wrdCheck, hllen, hwlen]

/-- An access depends on the bytes it needs only. -/
theorem needBytes_congr {first count : Nat} (h : ∀ i, i < count → s.lbuf.read (first + i) = s'.lbuf.read (first + i)) :
    needBytes s first count = needBytes s' first count := by
  simp only [needBytes, Memory.all_isSome_congr h]

/-- An access depends on the cells it needs only. -/
theorem needCells_congr {first count : Nat} (h : ∀ i, i < count → s.wbuf.read (first + i) = s'.wbuf.read (first + i)) :
    needCells s first count = needCells s' first count := by
  simp only [needCells, Memory.all_isSome_congr h]

/-- A field that passed its check needs bytes below LLEN only (R36). -/
theorem needBytes_field_congr (h : s.SameVisible s') {k w : Nat} (hr : k + w ≤ 8 * s.llen.toNat) :
    needBytes s (k / 8) (bytesTouched k w) = needBytes s' (k / 8) (bytesTouched k w) := by
  obtain ⟨-, -, -, -, -, -, -, -, hlbuf, -⟩ := h
  have htouched := touched_le hr
  exact needBytes_congr fun i hi => hlbuf _ (by omega)

/-- A command whose check passes needs bytes and cells below the lengths only. -/
theorem needOf_congr (h : s.SameVisible s') {i : Instr} (hc : checkOf i s = none) : needOf i s = needOf i s' := by
  have hfield := @needBytes_field_congr _ _ h
  obtain ⟨hllen, hwlen, -, -, -, -, -, -, hlbuf, hwbuf⟩ := h
  cases i with
  | extract off w => exact hfield ((accessCheck_eq_none _ _ _).1 hc).2
  | set off w val => exact hfield ((accessCheck_eq_none _ _ _).1 hc).2
  | unpack =>
    simp only [needOf, ← hwlen]
    exact needCells_congr fun i hi => hwbuf _ (by omega)
  | pack =>
    simp only [needOf, ← hllen]
    exact needBytes_congr fun i hi => hlbuf _ (by omega)
  | wpush b => simp only [needOf, hwlen]
  | wrd idx =>
    have hidx := (wrdCheck_eq_none _ _).1 hc
    exact needCells_congr fun i hi => hwbuf _ (by omega)
  | lclr n => rfl
  | wclr => rfl
  | fclr => rfl

/-- A command whose check passes has effects that agree below the new lengths. -/
theorem effectOf_sameVisible (h : s.SameVisible s') {i : Instr} (hc : checkOf i s = none) :
    (effectOf i s).SameVisible (effectOf i s') := by
  have ⟨hllen, hwlen, _, _, _, _, _, _, hlbuf, hwbuf⟩ := h
  cases i with
  | extract off w =>
    obtain ⟨-, hr⟩ := (accessCheck_eq_none _ _ _).1 hc
    have hfield : memRead s.lbuf off.toNat w.toNat = memRead s'.lbuf off.toNat w.toNat :=
      memRead_congr fun i hi => lbit_congr hlbuf (by omega)
    simp only [effectOf, hfield]
    exact h.withRes _
  | set off w val => exact h.withLbuf_memWrite _ _ _
  | unpack =>
    simp only [effectOf, ← hwlen]
    exact h.withLogical _ fun i hi => unpackedByte_congr_below hwbuf hi
  | pack =>
    simp only [effectOf, ← hllen]
    exact h.withWire _ fun i hi => packedCell_congr_below hlbuf hi
  | lclr n => exact h.withLogical _ fun _ _ => rfl
  | wclr => exact h.withWlen_zero
  | wpush b => exact h.withCell _
  | wrd idx =>
    have hcell := Memory.at_congr (hwbuf _ ((wrdCheck_eq_none _ _).1 hc))
    simp only [effectOf, hcell]
    exact h.withRes _
  | fclr => exact h.withFaultRegs _ _ _

/-! ## Every command, every transaction -/

/-- R61 for two states that agree: both drop the command, both fault, or both have its effect. -/
theorem exec_alike (h : s.SameVisible s') (i : Instr) : Alike (exec i s) (exec i s') := by
  by_cases hi : i = .fclr
  · subst hi
    exact alike_next (effectOf_sameVisible (i := .fclr) h rfl)
  have hcheck := checkOf_congr h i
  cases hF : faultFlag s with
  | true =>
    rw [exec_dropped hi hF, exec_dropped hi (h.faultFlag ▸ hF)]
    exact alike_next h
  | false =>
    have hF' : faultFlag s' = false := h.faultFlag ▸ hF
    cases hc : checkOf i s with
    | some c =>
      rw [exec_raises hF hc, exec_raises hF' (hcheck ▸ hc)]
      exact alike_next (h.withFaultRegs _ _ _)
    | none =>
      rw [exec_eq_runCommand i hi, exec_eq_runCommand i hi, runCommand_runs hF hc, runCommand_runs hF' (hcheck ▸ hc)]
      exact alike_unlessFault (needOf_congr h hc) fun _ => effectOf_sameVisible h hc

theorem rejectIllegal_sameVisible (h : s.SameVisible s') (d : Descriptor) :
    (rejectIllegal d s).SameVisible (rejectIllegal d s') := by
  cases hF : faultFlag s with
  | true =>
    rw [rejectIllegal_dropped d hF, rejectIllegal_dropped d (h.faultFlag ▸ hF)]
    exact h
  | false =>
    rw [rejectIllegal_raises d hF, rejectIllegal_raises d (h.faultFlag ▸ hF)]
    exact h.withFaultRegs _ _ _

theorem transact_alike (h : s.SameVisible s') (a : HostAction) : Alike (transact a s) (transact a s') := by
  cases a with
  | reset => exact alike_next h.resetBlock
  | read n =>
    rw [transact_read, transact_read, h.readPort n]
    exact alike_next (h.withAnswer _ _)
  | command d =>
    rw [transact_command, transact_command]
    cases hd : decode d with
    | error e =>
      rw [acceptCommand_of_illegal hd, acceptCommand_of_illegal hd]
      exact alike_next (rejectIllegal_sameVisible h d)
    | ok i =>
      rw [acceptCommand_of_decode hd, acceptCommand_of_decode hd]
      exact exec_alike h i

theorem step_alike (h : s.SameVisible s') : Alike (step s) (step s') := by
  have ⟨_, _, _, _, _, _, hhost, _⟩ := h
  cases hs : s.host with
  | nil =>
    rw [stepWithoutTransactionWaits s hs, stepWithoutTransactionWaits s' (hhost ▸ hs)]
    exact alike_next h
  | cons a rest =>
    rw [step_of_host_cons hs, step_of_host_cons (hhost ▸ hs)]
    exact transact_alike (h.withHost rest) a

end Commands

/-- Settles O48: `Alike` is what the statement says of the two steps. -/
theorem cellsPastLengthsUnobservable : Obligations.CellsPastLengthsUnobservable := fun _ _ h => step_alike h

end Sys2Proof.Machine
end

section
/-! A byte-aligned field is its bytes in little-endian order (R32): MemRead of a range is the MemReads of its two parts, MemRead of
one whole byte is that byte, and so MemRead of whole bytes is their sum by weights of 256. -/

namespace Sys2Proof.Machine

/-- R33: the first `n` bits of a range, and the `w` bits after them by the weight `2^n`. -/
theorem memRead_add (m : Memory 8) (k n w : Nat) :
    memRead m k (n + w) = memRead m k n + memRead m (k + n) w * 2 ^ n := by
  induction w with
  | zero => simp [memRead]
  | succ w ih =>
    rw [← Nat.add_assoc, memRead, ih, memRead, ← Nat.add_assoc k n w]
    ring

/-- R31: bit `j` of byte `i` stands at bit address `8*i + j`. -/
theorem lbit_of_byte (m : Memory 8) (i : Nat) {j : Nat} (hj : j < 8) : lbit m (8 * i + j) = (m.at i).getLsbD j := by
  rw [lbit, show (8 * i + j) / 8 = i by omega, show (8 * i + j) % 8 = j by omega]

/-- R32: the eight bits at `8*i` are the byte `i`. -/
theorem memRead_byte (m : Memory 8) (i : Nat) : memRead m (8 * i) 8 = (m.at i).toNat := by
  refine Nat.eq_of_testBit_eq fun j => ?_
  rw [testBit_memRead, BitVec.testBit_toNat]
  by_cases hj : j < 8
  · rw [lbit_of_byte m i hj, decide_eq_true hj, Bool.true_and]
  · rw [decide_eq_false hj, Bool.false_and, BitVec.getLsbD_of_ge _ _ (Nat.le_of_not_lt hj)]

/-- R32: the bits of `n` whole bytes are those bytes, the lowest index the least significant. -/
theorem memRead_bytes (m : Memory 8) (i n : Nat) :
    memRead m (8 * i) (8 * n) = ((List.range n).map (fun j => (m.at (i + j)).toNat * 256 ^ j)).sum := by
  induction n with
  | zero => rfl
  | succ n ih =>
    have hweight : 2 ^ (8 * n) = 256 ^ n := Nat.pow_mul 2 8 n
    rw [Nat.mul_succ, memRead_add, ih, ← Nat.mul_add, memRead_byte, hweight]
    simp [List.range_succ]

/-- With F = 0, EXTRACT of a legal field inside the logical buffer completes, RES alone changes, and RES is the field (R70). -/
theorem State.Inv.exec_extract {s : State} (h : s.Inv) (hF : faultFlag s = false) {off : BitVec 16} {w : BitVec 8}
    (hw : w.toNat ≤ 32) (hr : off.toNat + w.toNat ≤ 8 * s.llen.toNat) :
    ∃ v : BitVec 32, exec (.extract off w) s = .next (s.withRes v) ∧ v.toNat = memRead s.lbuf off.toNat w.toNat := by
  have hc : checkOf (.extract off w) s = none := (accessCheck_eq_none off w s).2 ⟨hw, hr⟩
  have hfits : memRead s.lbuf off.toNat w.toNat < 2 ^ 32 :=
    (memRead_lt _ _ _).trans_le (Nat.pow_le_pow_right (by decide) hw)
  refine ⟨_, exec_completes hF hc (h.needOf hc), ?_⟩
  rw [BitVec.toNat_ofNat, Nat.mod_eq_of_lt hfits]

/-- Settles O26: the field that EXTRACT reads at bit address `8*i` is the `n` bytes from `i` on. -/
theorem alignedFieldsAreLittleEndian : Obligations.AlignedFieldsAreLittleEndian := by
  intro off w i n b s hs hF hn hoff hw hlen hbytes
  obtain ⟨v, hexec, hv⟩ := hs.exec_extract hF (off := off) (w := w) (by omega) (by omega)
  refine ⟨v, hexec, ?_⟩
  have hat : ∀ j ∈ List.range n, (s.lbuf.at (i + j)).toNat * 256 ^ j = (b j).toNat * 256 ^ j := fun j hj => by
    rw [Memory.at_of_read _ (hbytes j (List.mem_range.1 hj))]
  rw [hv, hoff, hw, memRead_bytes, List.map_congr_left hat]

end Sys2Proof.Machine
end

section
/-! Descriptors and commands (R50 to R55): decoding and encoding undo each other, so that what a descriptor decodes to, which rows of
the opcode map it matches, and whether it is illegal are all questions about the fields of `encode i`. -/

namespace Sys2Proof

/-! ## A descriptor as a number -/

/-- Settles O1: each field is the digits of the descriptor's number at the field's place (R50). -/
theorem descriptorIsItsFields : Obligations.DescriptorIsItsFields := by
  intro d
  have hd : d.toNat < 2 ^ 64 := d.isLt
  simp only [descOp, descW, descOff, descVal, BitVec.extractLsb'_toNat, Nat.shiftRight_eq_div_pow]
  omega

/-- R50: the number of a descriptor put together from fields. -/
theorem toNat_descriptor (op w : BitVec 8) (off : BitVec 16) (val : BitVec 32) :
    (descriptor op w off val).toNat = op.toNat * 2 ^ 56 + w.toNat * 2 ^ 48 + off.toNat * 2 ^ 32 + val.toNat := by
  rw [descriptorIsItsFields, descOp_descriptor, descW_descriptor, descOff_descriptor, descVal_descriptor]

/-! ## Decoding the descriptor of a command -/

theorem ifZero_of_zero {zero : Bool} (h : zero = true) (d : Descriptor) (i : Instr) : ifZero zero d i = .ok i :=
  ifZero_eq_ok.2 ⟨h, rfl⟩

/-- The fields of a command code alone are zero. -/
theorem ifZero_noFields (op : BitVec 8) (i : Instr) :
    ifZero (noFields (descriptor op 0#8 0#16 0#32)) (descriptor op 0#8 0#16 0#32) i = .ok i :=
  ifZero_of_zero (by simp [noFields_eq_true]) _ i

/-- The wire byte of WPUSH is the low byte of `val`, and the rest of `val` is zero (R55, R92). -/
theorem fields_of_setWidth (b : BitVec 8) :
    (b.setWidth 32).setWidth 8 = b ∧ (b.setWidth 32).extractLsb' 8 24 = 0 := by
  refine ⟨BitVec.setWidth_setWidth_of_le b (by decide), BitVec.eq_of_getLsbD_eq fun i hi => ?_⟩
  simp

/-- R50, R53: the fields of a command's descriptor choose the command's own arm of the decoder. -/
theorem decode_encode (i : Instr) : decode (encode i) = .ok i := by
  cases i with
  | extract off w => simp [decode, encode, ifZero_of_zero]
  | set off w val => simp [decode, encode]
  | lclr n => simp [decode, encode, ifZero_of_zero]
  | wpush b =>
    obtain ⟨hbyte, hhigh⟩ := fields_of_setWidth b
    simp [decode, encode, ifZero_of_zero, hbyte, hhigh]
  | wrd idx => simp [decode, encode, ifZero_of_zero]
  | unpack => simp [decode, encode, ifZero_noFields _]
  | pack => simp [decode, encode, ifZero_noFields _]
  | wclr => simp [decode, encode, ifZero_noFields _]
  | fclr => simp [decode, encode, ifZero_noFields _]

/-- A descriptor decodes to a command exactly when it is the command's descriptor. -/
theorem decode_eq_ok_iff {d : Descriptor} {i : Instr} : decode d = .ok i ↔ encode i = d :=
  ⟨encode_of_decode, fun h => h ▸ decode_encode i⟩

/-- R52: a descriptor is illegal exactly when it is no command's descriptor. -/
theorem illegal_iff {d : Descriptor} : (∃ e, decode d = .error e) ↔ ∀ i, encode i ≠ d := by
  cases hd : decode d with
  | error e => simp [← decode_eq_ok_iff, hd]
  | ok i => simpa using ⟨i, encode_of_decode hd⟩

/-- Settles O2: one command at a time. -/
theorem decodeOfEncode : Obligations.DecodeOfEncode := decode_encode

/-- Settles O3: each arm of the decoder has found every field of the descriptor. -/
theorem encodeOfDecode : Obligations.EncodeOfDecode := fun _ _ => encode_of_decode

/-! ## The opcode map (R53) -/

/-- R53: the descriptor of every command matches the command's row. -/
theorem encode_matches_row (i : Instr) : encode i &&& opcodeMask i = opcodeMatch i := by
  cases i with
  | extract off w => exact Laws.EncodeMatchesRow.extract off w
  | set off w val => exact Laws.EncodeMatchesRow.set off w val
  | unpack => exact Laws.EncodeMatchesRow.unpack
  | pack => exact Laws.EncodeMatchesRow.pack
  | lclr n => exact Laws.EncodeMatchesRow.lclr n
  | wclr => exact Laws.EncodeMatchesRow.wclr
  | wpush b => exact Laws.EncodeMatchesRow.wpush b
  | wrd idx => exact Laws.EncodeMatchesRow.wrd idx
  | fclr => exact Laws.EncodeMatchesRow.fclr

/-- A row asks its bits of every field of the descriptor; WPUSH's asks them of the high part of `val` (R55). -/
theorem fields_of_row {d mask m : Descriptor} (h : d &&& mask = m) :
    descOp d &&& descOp mask = descOp m ∧ descW d &&& descW mask = descW m ∧ descOff d &&& descOff mask = descOff m ∧
      descVal d &&& descVal mask = descVal m ∧ descValHigh d &&& descValHigh mask = descValHigh m := by
  subst h
  simp only [descOp, descW, descOff, descVal, descValHigh, BitVec.extractLsb'_and, and_self]

theorem eq_of_and_allOnes {n : Nat} {x v : BitVec n} (h : x &&& BitVec.allOnes n = v) : x = v := by
  rwa [BitVec.and_allOnes] at h

/-- R53, R55: a descriptor that matches a row is the descriptor of one of that row's commands. -/
theorem exists_encode_of_row {d : Descriptor} {i : Instr} (h : d &&& opcodeMask i = opcodeMatch i) :
    ∃ j, encode j = d ∧ opcodeMatch j = opcodeMatch i := by
  cases i with
  | extract off w =>
    obtain ⟨hop, -, -, hval, -⟩ := fields_of_row (mask := 0xFF000000FFFFFFFF) (m := 0x0100000000000000) h
    exact ⟨.extract (descOff d) (descW d),
      descriptor_eq_of_fields (eq_of_and_allOnes hop) rfl rfl (eq_of_and_allOnes hval), rfl⟩
  | set off w val =>
    obtain ⟨hop, -, -, -, -⟩ := fields_of_row (mask := 0xFF00000000000000) (m := 0x0200000000000000) h
    exact ⟨.set (descOff d) (descW d) (descVal d), descriptor_eq_of_fields (eq_of_and_allOnes hop) rfl rfl rfl, rfl⟩
  | lclr n =>
    obtain ⟨hop, hw, -, hval, -⟩ := fields_of_row (mask := 0xFFFF0000FFFFFFFF) (m := 0x0500000000000000) h
    exact ⟨.lclr (descOff d),
      descriptor_eq_of_fields (eq_of_and_allOnes hop) (eq_of_and_allOnes hw) rfl (eq_of_and_allOnes hval), rfl⟩
  | wpush b =>
    obtain ⟨hop, hw, hoff, -, hhigh⟩ := fields_of_row (mask := 0xFFFFFFFFFFFFFF00) (m := 0x0700000000000000) h
    have hzero : (descVal d).extractLsb' 8 24 = 0 := by
      rw [← descValHigh_eq]
      exact eq_of_and_allOnes hhigh
    refine ⟨.wpush (descByte d), descriptor_eq_of_fields (eq_of_and_allOnes hop) (eq_of_and_allOnes hw)
      (eq_of_and_allOnes hoff) ?_, rfl⟩
    rw [descByte_eq, setWidth_setWidth_of_high_zero hzero]
  | wrd idx =>
    obtain ⟨hop, hw, -, hval, -⟩ := fields_of_row (mask := 0xFFFF0000FFFFFFFF) (m := 0x0800000000000000) h
    exact ⟨.wrd (descOff d),
      descriptor_eq_of_fields (eq_of_and_allOnes hop) (eq_of_and_allOnes hw) rfl (eq_of_and_allOnes hval), rfl⟩
  | unpack => exact ⟨.unpack, (eq_of_and_allOnes h).symm, rfl⟩
  | pack => exact ⟨.pack, (eq_of_and_allOnes h).symm, rfl⟩
  | wclr => exact ⟨.wclr, (eq_of_and_allOnes h).symm, rfl⟩
  | fclr => exact ⟨.fclr, (eq_of_and_allOnes h).symm, rfl⟩

/-- Two commands with the same match are of the same row, whose mask they share. -/
theorem opcodeMask_congr {i j : Instr} (h : opcodeMatch i = opcodeMatch j) : opcodeMask i = opcodeMask j := by
  cases i <;> cases j <;> simp [opcodeMatch] at h <;> rfl

/-- R53: a descriptor decodes to a command of a row exactly when it matches the row. -/
theorem decodes_to_row_iff {d : Descriptor} {i : Instr} :
    (∃ j, decode d = .ok j ∧ opcodeMatch j = opcodeMatch i) ↔ d &&& opcodeMask i = opcodeMatch i := by
  constructor
  · rintro ⟨j, hd, hj⟩
    rw [← encode_of_decode hd, ← opcodeMask_congr hj, ← hj]
    exact encode_matches_row j
  · intro h
    obtain ⟨j, hd, hj⟩ := exists_encode_of_row h
    exact ⟨j, decode_eq_ok_iff.2 hd, hj⟩

/-- Settles O4: a descriptor decodes to at most one command, so two rows that it matches are that command's row. -/
theorem decodeFollowsOpcodeMap : Obligations.DecodeFollowsOpcodeMap := by
  refine ⟨fun _ _ => decodes_to_row_iff, fun d i j hi hj => ?_⟩
  obtain ⟨c, hc, hci⟩ := decodes_to_row_iff.2 hi
  obtain ⟨c', hc', hcj⟩ := decodes_to_row_iff.2 hj
  have hcc' : c = c' := Except.ok.inj (hc.symm.trans hc')
  rw [← hci, hcc', hcj]

/-- R52: a descriptor is illegal exactly when it matches no row of the opcode map. -/
theorem illegal_iff_no_row {d : Descriptor} :
    (∃ e, decode d = .error e) ↔ ∀ i, d &&& opcodeMask i ≠ opcodeMatch i := by
  rw [illegal_iff]
  constructor
  · intro hnone i hrow
    obtain ⟨j, hj, -⟩ := exists_encode_of_row hrow
    exact hnone j hj
  · rintro hnone i rfl
    exact hnone i (encode_matches_row i)

/-! ## Illegal descriptors (R54, R55) -/

/-- The command codes of the commands (R53). -/
theorem descOp_encode (i : Instr) : 1 ≤ (descOp (encode i)).toNat ∧ (descOp (encode i)).toNat ≤ 9 := by
  cases i <;> simp [encode]

/-- Settles O6: the command code of a command is 1 to 9. -/
theorem reservedCodesAreIllegal : Obligations.ReservedCodesAreIllegal := by
  have hreserved : ∀ d : Descriptor, (descOp d).toNat = 0 ∨ 10 ≤ (descOp d).toNat → ∃ e, decode d = .error e := by
    intro d hop
    refine illegal_iff.2 fun i hi => ?_
    obtain ⟨hpos, hle⟩ := descOp_encode i
    rw [hi] at hpos hle
    omega
  exact ⟨hreserved, hreserved 0 (.inl rfl)⟩

/-- R55, EXTRACT: a descriptor with code 1 that decodes has `val` zero. -/
theorem fields_of_code_extract {i : Instr} (h : (descOp (encode i)).toNat = 1) : descVal (encode i) = 0 := by
  cases i <;> simp_all [encode]

/-- R55, the commands without operands: every field is zero. -/
theorem fields_of_code_noFields {i : Instr}
    (h : (descOp (encode i)).toNat = 3 ∨ (descOp (encode i)).toNat = 4 ∨ (descOp (encode i)).toNat = 6 ∨
      (descOp (encode i)).toNat = 9) :
    descW (encode i) = 0 ∧ descOff (encode i) = 0 ∧ descVal (encode i) = 0 := by
  cases i <;> simp_all [encode]

/-- R55, LCLR and WRD: `w` and `val` are zero. -/
theorem fields_of_code_index {i : Instr} (h : (descOp (encode i)).toNat = 5 ∨ (descOp (encode i)).toNat = 8) :
    descW (encode i) = 0 ∧ descVal (encode i) = 0 := by
  cases i <;> simp_all [encode]

/-- R55, WPUSH: `w` and `off` are zero, and `val` is a byte. -/
theorem fields_of_code_wpush {i : Instr} (h : (descOp (encode i)).toNat = 7) :
    descW (encode i) = 0 ∧ descOff (encode i) = 0 ∧ (descVal (encode i)).toNat < 256 := by
  cases i with
  | wpush b =>
    have hbyte : (b.setWidth 32).toNat = b.toNat := BitVec.toNat_setWidth_of_le (by decide)
    simpa [encode, hbyte] using b.isLt
  | _ => simp_all [encode]

/-! ## Words written out -/

/-- The word of a command's descriptor decodes to the command. -/
theorem decodeTableWord_of_encode {n w : Nat} {i : Instr} (h : tableDescriptor n w = encode i) :
    decodeTableWord n w = some i := by
  rw [decodeTableWord, h, decode_encode]
  rfl

theorem decodeTableWord_of_illegal {n w : Nat} (h : ∃ e, decode (tableDescriptor n w) = .error e) :
    decodeTableWord n w = none := by
  obtain ⟨e, he⟩ := h
  rw [decodeTableWord, he]
  rfl

/-- Settles O8: six words are the descriptors of their commands; EXTRACT has `val` not zero in the seventh, and the last has a
reserved code. -/
theorem writtenWordsDecode : Obligations.WrittenWordsDecode := by
  refine ⟨decodeTableWord_of_encode (by decide), decodeTableWord_of_encode (by decide),
    decodeTableWord_of_encode (by decide), decodeTableWord_of_encode (by decide),
    decodeTableWord_of_encode (by decide), decodeTableWord_of_encode (by decide),
    decodeTableWord_of_illegal (illegal_iff.2 fun i hi => ?_), decodeTableWord_of_illegal ?_⟩
  · have hval := fields_of_code_extract (i := i) (by rw [hi]; decide)
    rw [hi] at hval
    exact absurd hval (by decide)
  · exact reservedCodesAreIllegal.1 _ (.inl (by decide))

end Sys2Proof
end

section
/-! The command port and the descriptors of the encoding: what an illegal one does (R52, R55), and the widths of EXTRACT and SET that
are legal encodings (R56). -/

namespace Sys2Proof.Machine

/-! ## Illegal descriptors and must-be-zero fields -/

/-- R52, R61 step 2, R106: what an illegal descriptor does, by F. -/
theorem acceptCommand_illegal {d : Descriptor} {e : Illegal} (h : decode d = .error e) (s : State) :
    (faultFlag s = false → acceptCommand d s = .next (takeFault .illegalCmd d s)) ∧
    (faultFlag s = true → acceptCommand d s = .next s) := by
  rw [acceptCommand_of_illegal h]
  exact ⟨fun hF => by rw [rejectIllegal_raises d hF], fun hF => by rw [rejectIllegal_dropped d hF]⟩

/-- Settles O5: illegal is matching no row, and an illegal descriptor faults or is dropped. -/
theorem illegalExactlyWhenNoRowMatches : Obligations.IllegalExactlyWhenNoRowMatches :=
  ⟨fun _ => illegal_iff_no_row, fun _ s _ h => acceptCommand_illegal h s⟩

/-- The command port runs a command's descriptor as the command. -/
theorem acceptCommand_encode (i : Instr) (s : State) : acceptCommand (encode i) s = exec i s :=
  acceptCommand_of_decode (decode_encode i) s

/-- R92: a wire byte with bit 7 set is the first cause WPUSH checks for. -/
theorem wpushCheck_data7 {b : BitVec 8} (h : b.getLsbD 7 = true) (s : State) : wpushCheck b s = some .data7 := by
  rw [wpushCheck, if_pos h]

/-- Settles O7: a descriptor with the code that decodes would be a command's, whose must-be-zero fields are zero. -/
theorem mustBeZeroFields : Obligations.MustBeZeroFields := by
  refine ⟨fun d hop hval => illegal_iff.2 ?_, fun d hop hfield => illegal_iff.2 ?_,
    fun d hop hfield => illegal_iff.2 ?_, fun d hop hfield => illegal_iff.2 ?_, fun b s hb hF => ⟨?_, ?_⟩⟩
  · rintro i rfl
    exact hval (fields_of_code_extract hop)
  · rintro i rfl
    obtain ⟨hw, hoff, hval⟩ := fields_of_code_noFields hop
    simp [hw, hoff, hval] at hfield
  · rintro i rfl
    obtain ⟨hw, hval⟩ := fields_of_code_index hop
    simp [hw, hval] at hfield
  · rintro i rfl
    obtain ⟨hw, hoff, hval⟩ := fields_of_code_wpush hop
    rcases hfield with h | h | h
    · exact h hw
    · exact h hoff
    · omega
  · exact decode_encode (.wpush b)
  · calc acceptCommand (encode (.wpush b)) s = exec (.wpush b) s := acceptCommand_encode _ s
      _ = .next (takeFault .data7 (encode (.wpush b)) s) := exec_raises hF (wpushCheck_data7 hb s)

/-! ## Widths of EXTRACT and SET (R56) -/

theorem accessCheck_badWidth {w : BitVec 8} (h : 32 < w.toNat) (off : BitVec 16) (s : State) :
    accessCheck off w s = some .badWidth := by
  rw [accessCheck, if_pos h]

theorem accessCheck_range {off : BitVec 16} {w : BitVec 8} {s : State} (hw : w.toNat ≤ 32)
    (h : 8 * s.llen.toNat < off.toNat + w.toNat) : accessCheck off w s = some .range := by
  rw [accessCheck, if_neg (Nat.not_lt.2 hw), if_pos h]

/-- R36: an empty field inside a buffer of legal length needs no byte, so none has to be written. -/
theorem needBytes_emptyField {s : State} {k : Nat} (hlen : s.llen.toNat ≤ 448) (hr : k ≤ 8 * s.llen.toNat) :
    needBytes s (k / 8) (bytesTouched k 0) = none :=
  (needBytes_eq_none s _ 0).2 ⟨by omega, fun i hi => absurd hi (Nat.not_lt_zero i)⟩

/-- Settles O21: a width of 0 passes the check inside the buffer and moves no bit; past it and above 32 the check fails. -/
theorem widthValues : Obligations.WidthValues := by
  intro off w val s hF
  refine ⟨fun hlens hr => ?_, fun hr => ?_, fun hw => ?_⟩
  · obtain ⟨hllen, -⟩ := hlens
    have hc : accessCheck off 0 s = none := (accessCheck_eq_none off 0 s).2 ⟨by decide, hr⟩
    have hn := needBytes_emptyField hllen hr
    exact ⟨exec_completes (i := .extract off 0) hF hc hn, exec_completes (i := .set off 0 val) hF hc hn⟩
  · have hc : accessCheck off 0 s = some .range := accessCheck_range (by decide) hr
    exact ⟨exec_raises (i := .extract off 0) hF hc, exec_raises (i := .set off 0 val) hF hc⟩
  · have hc := accessCheck_badWidth hw off s
    exact ⟨decode_encode (.extract off w), decode_encode (.set off w val),
      exec_raises (i := .extract off w) hF hc, exec_raises (i := .set off w val) hF hc⟩

end Sys2Proof.Machine
end

section
/-! Listings (R58, R59): what a line assembles to, and what the assembled byte accesses do. -/

namespace Sys2Proof.Machine

/-! ## Lines that an assembler takes and rejects (R58) -/

theorem assembleLine_of_wellFormed {l : Line} (h : l.wellFormed = true) :
    assembleLine l = some ((expandLine l).map fun c => encode (Source.instr c)) := by
  rw [assembleLine, if_pos h]

theorem assembleLine_of_not_wellFormed {l : Line} (h : ¬ l.wellFormed = true) : assembleLine l = none := by
  rw [assembleLine, if_neg h]

/-- R58: a command whose operands fit assembles to the one descriptor of its command, whose number is `n`. -/
theorem assembleLine_command {c : Source} {n : Nat} (hfit : c.wellFormed = true) (hn : (encode (Source.instr c)).toNat = n) :
    ∃ d, assembleLine (.command c) = some [d] ∧ d.toNat = n :=
  ⟨_, assembleLine_of_wellFormed (l := .command c) hfit, hn⟩

/-- R58: a command with an operand that does not fit its field is rejected. -/
theorem assembleLine_command_rejected {c : Source} (h : ¬ c.wellFormed = true) : assembleLine (.command c) = none :=
  assembleLine_of_not_wellFormed (l := .command c) h

section Operands
variable (off w val n b : Nat)

theorem wellFormed_extract : (Source.extract off w).wellFormed = true ↔ off ≤ 65535 ∧ w ≤ 255 := by
  simp [Source.wellFormed]

theorem wellFormed_set : (Source.set off w val).wellFormed = true ↔ off ≤ 65535 ∧ w ≤ 255 ∧ val ≤ 4294967295 := by
  simp [Source.wellFormed, and_assoc]

theorem wellFormed_lclr : (Source.lclr n).wellFormed = true ↔ n ≤ 65535 := by simp [Source.wellFormed]

theorem wellFormed_wpush : (Source.wpush b).wellFormed = true ↔ b ≤ 255 := by simp [Source.wellFormed]

theorem wellFormed_wrd : (Source.wrd n).wellFormed = true ↔ n ≤ 65535 := by simp [Source.wellFormed]

theorem wellFormed_lrdb : (Line.lrdb n).wellFormed = true ↔ 8 * n ≤ 65535 := by simp [Line.wellFormed]

theorem wellFormed_lwrb : (Line.lwrb n b).wellFormed = true ↔ 8 * n ≤ 65535 ∧ b ≤ 255 := by simp [Line.wellFormed]

end Operands

/-- Settles O50: the number of each command's descriptor is the sum of its fields, and each operand that fits is its field. -/
theorem listingDescriptors : Obligations.ListingDescriptors := by
  refine ⟨fun off w hoff hw => assembleLine_command ((wellFormed_extract off w).2 ⟨hoff, hw⟩) ?_,
    fun off w val hoff hw hval => assembleLine_command ((wellFormed_set off w val).2 ⟨hoff, hw, hval⟩) ?_,
    assembleLine_of_wellFormed rfl, assembleLine_of_wellFormed rfl,
    fun n hn => assembleLine_command ((wellFormed_lclr n).2 hn) ?_, assembleLine_of_wellFormed rfl,
    fun b hb => assembleLine_command ((wellFormed_wpush b).2 hb) ?_,
    fun idx hidx => assembleLine_command ((wellFormed_wrd idx).2 hidx) ?_, assembleLine_of_wellFormed rfl,
    fun off w h => assembleLine_command_rejected ?_, fun off w val h => assembleLine_command_rejected ?_,
    fun n h => ⟨assembleLine_command_rejected ?_, assembleLine_command_rejected ?_⟩,
    fun b h => assembleLine_command_rejected ?_⟩
  · simp only [Source.instr, encode, toNat_descriptor, BitVec.ofNat_eq_ofNat, BitVec.toNat_ofNat]
    omega
  · simp only [Source.instr, encode, toNat_descriptor, BitVec.ofNat_eq_ofNat, BitVec.toNat_ofNat]
    omega
  · simp only [Source.instr, encode, toNat_descriptor, BitVec.ofNat_eq_ofNat, BitVec.toNat_ofNat]
    omega
  · simp only [Source.instr, encode, toNat_descriptor, BitVec.ofNat_eq_ofNat, BitVec.toNat_ofNat, BitVec.toNat_setWidth]
    omega
  · simp only [Source.instr, encode, toNat_descriptor, BitVec.ofNat_eq_ofNat, BitVec.toNat_ofNat]
    omega
  · rw [wellFormed_extract]
    omega
  · rw [wellFormed_set]
    omega
  · rw [wellFormed_lclr]
    omega
  · rw [wellFormed_wrd]
    omega
  · rw [wellFormed_wpush]
    omega

/-! ## One byte of the logical buffer (R59) -/

/-- R34: MemWrite of the eight bits at `8*i` makes byte `i` the low byte of the value. -/
theorem at_memWrite_byte (m : Memory 8) (i : Nat) (v : BitVec 32) : (memWrite m (8 * i) v 8).at i = v.setWidth 8 := by
  refine BitVec.eq_of_getLsbD_eq fun j hj => ?_
  rw [← lbit_of_byte _ i hj, lbit_memWrite, if_pos (by omega), Nat.add_sub_cancel_left, BitVec.getLsbD_setWidth]
  simp [hj]

section ByteAccess
variable {s : State} {off : BitVec 16} {i : Nat}

/-- The eight bits of a byte below LLEN pass the check of EXTRACT and SET (R72). -/
theorem accessCheck_byte (hoff : off.toNat = 8 * i) (hi : i < s.llen.toNat) : accessCheck off 8 s = none := by
  refine (accessCheck_eq_none off 8 s).2 ⟨by decide, ?_⟩
  rw [hoff, show (8 : BitVec 8).toNat = 8 from rfl]
  omega

/-- R70: EXTRACT of the eight bits at `8*i` puts byte `i` into RES. -/
theorem State.Inv.exec_extract_byte (h : s.Inv) (hF : faultFlag s = false) (hoff : off.toNat = 8 * i)
    (hi : i < s.llen.toNat) : exec (.extract off 8) s = .next (s.withRes ((s.lbuf.at i).setWidth 32)) := by
  obtain ⟨hw, hr⟩ := (accessCheck_eq_none off 8 s).1 (accessCheck_byte hoff hi)
  obtain ⟨v, hexec, hv⟩ := h.exec_extract hF hw hr
  have hbyte : v = (s.lbuf.at i).setWidth 32 := by
    refine BitVec.eq_of_toNat_eq ?_
    rw [hv, hoff, BitVec.toNat_setWidth_of_le (by decide)]
    exact memRead_byte s.lbuf i
  rw [hexec, hbyte]

/-- R71: SET of the eight bits at `8*i` is the MemWrite of byte `i`. -/
theorem State.Inv.exec_set_byte (h : s.Inv) (hF : faultFlag s = false) (hoff : off.toNat = 8 * i)
    (hi : i < s.llen.toNat) (val : BitVec 32) :
    exec (.set off 8 val) s = .next (s.withLbuf (memWrite s.lbuf (8 * i) val 8)) := by
  have hc : checkOf (.set off 8 val) s = none := accessCheck_byte hoff hi
  rw [exec_completes hF hc (h.needOf hc), effectOf, hoff]
  rfl

end ByteAccess

/-- Settles O51: the byte's field is eight bits at bit address `8*i`, which fits 16 bits. -/
theorem byteAccessPseudoCommands : Obligations.ByteAccessPseudoCommands := by
  intro s i b hs hF hi hb
  have hllen := hs.llen_le
  have hheld := hs.byteHeld hi
  have hoff : (BitVec.ofNat 16 (8 * i)).toNat = 8 * i := by
    rw [BitVec.toNat_ofNat, Nat.mod_eq_of_lt (by omega)]
  constructor
  · refine ⟨_, s.lbuf.at i, assembleLine_of_wellFormed ((wellFormed_lrdb i).2 (by omega)), Memory.read_eq_at _ hheld, ?_⟩
    exact (acceptCommand_encode _ s).trans (hs.exec_extract_byte hF hoff hi)
  · refine ⟨_, _, assembleLine_of_wellFormed ((wellFormed_lwrb i b).2 ⟨by omega, hb⟩),
      (acceptCommand_encode _ s).trans (hs.exec_set_byte hF hoff hi _), ?_, ?_⟩
    · rw [Memory.read_eq_at _ (isSome_read_memWrite _ _ _ _ _ hheld), at_memWrite_byte,
        BitVec.setWidth_ofNat_of_le (by decide)]
    · exact fun c hc => read_memWrite_other _ _ _ _ _ fun j hj => by omega

end Sys2Proof.Machine
end

section
/-! EXTRACT and SET (40_bit_accessor.md section 1, R70 to R72) and the laws of the two (R73, R74, R75): each command's outcome is a
MemRead or a MemWrite, and a MemWrite is known by the bits it gives its range (R34). -/

namespace Sys2Proof.Machine

/-! ## Memories told apart by their bits (R31) -/

/-- Eight equal bits make equal bytes. -/
theorem Memory.at_eq_of_lbit {m m' : Memory 8} {c : Nat} (h : ∀ j, j < 8 → lbit m (8 * c + j) = lbit m' (8 * c + j)) :
    m.at c = m'.at c := by
  refine BitVec.eq_of_getLsbD_eq fun j hj => ?_
  rw [← lbit_of_byte m c hj, ← lbit_of_byte m' c hj, h j hj]

/-- Two memories in canonical form with the first `len` bytes written are equal as data when they agree bit by bit there, and byte by
byte past them. -/
theorem Memory.ext_of_lbit {m m' : Memory 8} {len : Nat} (hwf : m.wf) (hwf' : m'.wf) (hheld : m.holds len)
    (hheld' : m'.holds len) (hbits : ∀ a, a < 8 * len → lbit m a = lbit m' a)
    (hpast : ∀ c, len ≤ c → m.read c = m'.read c) : m = m' := by
  refine Memory.ext_of_read hwf hwf' fun c => ?_
  by_cases hc : c < len
  · rw [m.read_eq_at (hheld c hc), m'.read_eq_at (hheld' c hc), Memory.at_eq_of_lbit fun j hj => hbits _ (by omega)]
  · exact hpast c (Nat.le_of_not_lt hc)

/-! ## MemWrite -/

theorem holds_memWrite {m : Memory 8} {len : Nat} (h : m.holds len) (k : Nat) (v : BitVec 32) (n : Nat) :
    (memWrite m k v n).holds len := fun c hc => isSome_read_memWrite m k v n c (h c hc)

/-- MemWrite of a range inside the first `len` bytes leaves every byte past them. -/
theorem read_memWrite_past (m : Memory 8) (v : BitVec 32) {k n len c : Nat} (hr : k + n ≤ 8 * len) (hc : len ≤ c) :
    (memWrite m k v n).read c = m.read c :=
  read_memWrite_other m k v n c fun i hi => by omega

/-- A bit that MemWrite does not name is in the memory after it what it was, where there was one. -/
theorem bitAt_memWrite_other {m : Memory 8} {k n a : Nat} {v : Bool} (val : BitVec 32) (ha : a < k ∨ k + n ≤ a)
    (hbit : BitAt m a v) : BitAt (memWrite m k val n) a v := by
  have hheld : (m.read (a / 8)).isSome := by
    obtain ⟨b, hb, -⟩ := hbit
    rw [hb]
    rfl
  rw [bitAt_iff_lbit (isSome_read_memWrite _ _ _ _ _ hheld), lbit_memWrite, if_neg (by omega)]
  exact (bitAt_iff_lbit hheld).1 hbit

/-- R34: bits `n` and above of the value are ignored. -/
theorem memWrite_congr {m : Memory 8} {k n : Nat} {v v' : BitVec 32} (h : ∀ i, i < n → v.getLsbD i = v'.getLsbD i) :
    memWrite m k v n = memWrite m k v' n := by
  induction n with
  | zero => rfl
  | succ n ih =>
    rw [memWrite, memWrite, ih fun i hi => h i (Nat.lt_succ_of_lt hi), h n (Nat.lt_succ_self n)]

/-- Values equal modulo `2^n` agree in their low `n` bits. -/
theorem getLsbD_eq_of_mod_eq {v v' : BitVec 32} {n i : Nat} (h : v.toNat % 2 ^ n = v'.toNat % 2 ^ n) (hi : i < n) :
    v.getLsbD i = v'.getLsbD i := by
  have hbit := congrArg (fun x : Nat => x.testBit i) h
  simpa [Nat.testBit_mod_two_pow, hi, BitVec.testBit_toNat] using hbit

/-- R73: what MemRead finds where MemWrite has just written. -/
theorem memRead_memWrite_same (m : Memory 8) (k : Nat) (v : BitVec 32) (n : Nat) :
    memRead (memWrite m k v n) k n = v.toNat % 2 ^ n := by
  refine Nat.eq_of_testBit_eq fun i => ?_
  rw [testBit_memRead, Nat.testBit_mod_two_pow, BitVec.testBit_toNat]
  by_cases hi : i < n
  · rw [lbit_memWrite, if_pos (by omega), Nat.add_sub_cancel_left]
  · simp [hi]

/-! ## Ranges that share no bit (R74) -/

/-- The ranges of `n` bits from `k` on and of `n'` bits from `k'` on share no bit; an empty range shares none with any other. -/
def RangesDisjoint (k n k' n' : Nat) : Prop := k + n ≤ k' ∨ k' + n' ≤ k ∨ n = 0 ∨ n' = 0

theorem RangesDisjoint.not_mem {k n k' n' a : Nat} (h : RangesDisjoint k n k' n') (ha : k' ≤ a ∧ a < k' + n') :
    ¬ (k ≤ a ∧ a < k + n) := by
  unfold RangesDisjoint at h
  omega

/-- A MemWrite leaves a MemRead of a range that shares no bit with its own. -/
theorem memRead_memWrite_disjoint (m : Memory 8) (v : BitVec 32) {k n k' n' : Nat} (h : RangesDisjoint k n k' n') :
    memRead (memWrite m k v n) k' n' = memRead m k' n' :=
  memRead_congr fun i hi => by rw [lbit_memWrite, if_neg (h.not_mem (by omega))]

/-- Bit by bit, MemWrites of ranges that share no bit commute. -/
theorem lbit_memWrite_comm (m : Memory 8) (v v' : BitVec 32) {k n k' n' : Nat} (h : RangesDisjoint k n k' n') (a : Nat) :
    lbit (memWrite (memWrite m k v n) k' v' n') a = lbit (memWrite (memWrite m k' v' n') k v n) a := by
  simp only [lbit_memWrite]
  by_cases ha : k' ≤ a ∧ a < k' + n'
  · rw [if_pos ha, if_neg (h.not_mem ha), if_pos ha]
  · rw [if_neg ha, if_neg ha]

/-- Inside the written bytes of a canonical memory, MemWrites of ranges that share no bit commute as data. -/
theorem memWrite_comm {m : Memory 8} {len : Nat} (hwf : m.wf) (hheld : m.holds len) (v v' : BitVec 32) {k n k' n' : Nat}
    (hr : k + n ≤ 8 * len) (hr' : k' + n' ≤ 8 * len) (h : RangesDisjoint k n k' n') :
    memWrite (memWrite m k v n) k' v' n' = memWrite (memWrite m k' v' n') k v n := by
  refine Memory.ext_of_lbit (len := len) (wf_memWrite _ _ _ _ (wf_memWrite _ _ _ _ hwf))
    (wf_memWrite _ _ _ _ (wf_memWrite _ _ _ _ hwf)) (holds_memWrite (holds_memWrite hheld _ _ _) _ _ _)
    (holds_memWrite (holds_memWrite hheld _ _ _) _ _ _) (fun a _ => lbit_memWrite_comm m v v' h a) fun c hc => ?_
  rw [read_memWrite_past _ v' hr' hc, read_memWrite_past _ v hr hc, read_memWrite_past _ v hr hc,
    read_memWrite_past _ v' hr' hc]

/-! ## The two commands -/

section Commands
variable {s : State} {off : BitVec 16} {w : BitVec 8}

/-- The later of two writes of LBUF stands. -/
@[simp] theorem State.withLbuf_withLbuf (m m' : Memory 8) : (s.withLbuf m).withLbuf m' = s.withLbuf m' := rfl

theorem State.Inv.lbuf_wf (h : s.Inv) : s.lbuf.wf := by
  obtain ⟨⟨hwf, -⟩, -⟩ := h
  exact hwf

/-- A bit inside the logical buffer of a legal state is the one `lbit` computes. -/
theorem State.Inv.bitAt_iff (h : s.Inv) {a : Nat} {v : Bool} (ha : a < 8 * s.llen.toNat) : BitAt s.lbuf a v ↔ lbit s.lbuf a = v :=
  bitAt_iff_lbit (h.byteHeld (by omega))

/-- With F = 0, a SET whose check passes is its MemWrite, in any state where the bytes it touches are there (R34, R71). -/
theorem exec_set_runs (hF : faultFlag s = false) (hc : accessCheck off w s = none) (val : BitVec 32) :
    exec (.set off w val) s = unlessFault (needBytes s (off.toNat / 8) (bytesTouched off.toNat w.toNat))
      (s.withLbuf (memWrite s.lbuf off.toNat val w.toNat)) :=
  (exec_eq_runCommand (.set off w val) (by simp) s).trans (runCommand_runs hF hc)

/-- With F = 0, SET of a legal field inside the logical buffer completes with the MemWrite of R71. -/
theorem State.Inv.exec_set (h : s.Inv) (hF : faultFlag s = false) (val : BitVec 32) (hw : w.toNat ≤ 32)
    (hr : off.toNat + w.toNat ≤ 8 * s.llen.toNat) :
    exec (.set off w val) s = .next (s.withLbuf (memWrite s.lbuf off.toNat val w.toNat)) := by
  rw [exec_set_runs hF ((accessCheck_eq_none off w s).2 ⟨hw, hr⟩), h.needBytes_field hr, unlessFault_none]

end Commands

/-! ## The statements -/

/-- Settles O19: the faults are the check's, and bit `i` of the MemRead is the bit at `off + i`. -/
theorem extractReadsField : Obligations.ExtractReadsField := by
  intro off w s hF
  refine ⟨fun d => decode_eq_ok_iff.trans eq_comm, fun hs hw hr => ?_,
    fun hw => exec_raises (i := .extract off w) hF (accessCheck_badWidth hw off s),
    fun hw hr => exec_raises (i := .extract off w) hF (accessCheck_range hw hr)⟩
  obtain ⟨v, hexec, hv⟩ := hs.exec_extract hF hw hr
  have hbit : ∀ i, v.getLsbD i = (decide (i < w.toNat) && lbit s.lbuf (off.toNat + i)) := fun i => by
    rw [← BitVec.testBit_toNat, hv, testBit_memRead]
  refine ⟨v, hexec, fun i hi => (hs.bitAt_iff (by omega)).2 ?_, fun i hi => ?_⟩
  · rw [hbit, decide_eq_true hi, Bool.true_and]
  · rw [hbit, decide_eq_false (Nat.not_lt.2 hi), Bool.false_and]

/-- Settles O20: the faults are the check's, and the new LBUF is a MemWrite. -/
theorem setWritesField : Obligations.SetWritesField := by
  intro off w val s hF
  refine ⟨fun d => decode_eq_ok_iff.trans eq_comm, fun hs hw hr => ?_,
    fun hw => exec_raises (i := .set off w val) hF (accessCheck_badWidth hw off s),
    fun hw hr => exec_raises (i := .set off w val) hF (accessCheck_range hw hr)⟩
  refine ⟨_, hs.exec_set hF val hw hr, fun i hi => ?_, fun a v ha => bitAt_memWrite_other val ha,
    fun c => read_memWrite_other _ _ _ _ c⟩
  have hheld : (s.lbuf.read ((off.toNat + i) / 8)).isSome := hs.byteHeld (by omega)
  rw [bitAt_iff_lbit (isSome_read_memWrite _ _ _ _ _ hheld), lbit_memWrite, if_pos (by omega), Nat.add_sub_cancel_left]

/-- Settles O22: the state after the SET is legal, and the EXTRACT reads what was written. -/
theorem setThenExtract : Obligations.SetThenExtract := by
  intro off w val s hs hF hw hr
  obtain ⟨v, hexec, hv⟩ := (hs.withLbuf_memWrite val hr).exec_extract hF hw hr
  exact ⟨_, _, hs.exec_set hF val hw hr, hexec, hv.trans (memRead_memWrite_same _ _ _ _)⟩

/-- Settles O23: both orders complete, and the two MemWrites commute. -/
theorem disjointSetsCommute : Obligations.DisjointSetsCommute := by
  intro off off' w w' val val' s hs hF hw hw' hr hr' hdisj
  have hfirst := (hs.withLbuf_memWrite val hr).exec_set hF val' hw' hr'
  have hsecond := (hs.withLbuf_memWrite val' hr').exec_set hF val hw hr
  refine ⟨_, _, _, hs.exec_set hF val hw hr, hfirst, hs.exec_set hF val' hw' hr', hsecond.trans ?_⟩
  have hcomm := memWrite_comm hs.lbuf_wf (fun _ => hs.byteHeld) val val' hr hr' hdisj
  simp only [State.withLbuf_lbuf, State.withLbuf_withLbuf, hcomm]

/-- Settles O24: the SET leaves the MemRead of the EXTRACT's range. -/
theorem disjointSetKeepsExtract : Obligations.DisjointSetKeepsExtract := by
  intro off off' w w' val s hs hF hw hw' hr hr' hdisj
  obtain ⟨v, hexec, hv⟩ := hs.exec_extract hF hw' hr'
  obtain ⟨v', hexec', hv'⟩ := (hs.withLbuf_memWrite val hr).exec_extract hF hw' hr'
  refine ⟨_, _, _, hs.exec_set hF val hw hr, hexec, hexec', BitVec.eq_of_toNat_eq ?_⟩
  rw [State.withRes_res, State.withRes_res, hv', hv]
  exact memRead_memWrite_disjoint _ val hdisj

/-- Settles O25: dropped, SET changes nothing; otherwise its check passes, and the MemWrites of the two values are one. -/
theorem setIgnoresHighBits : Obligations.SetIgnoresHighBits := by
  intro off w val val' s hw hr hmod
  cases hF : faultFlag s with
  | true => rw [exec_dropped (by simp) hF, exec_dropped (by simp) hF]
  | false =>
    have hc : accessCheck off w s = none := (accessCheck_eq_none off w s).2 ⟨hw, hr⟩
    have hwrite : memWrite s.lbuf off.toNat val w.toNat = memWrite s.lbuf off.toNat val' w.toNat :=
      memWrite_congr fun i hi => getLsbD_eq_of_mod_eq hmod hi
    rw [exec_set_runs hF hc, exec_set_runs hF hc, hwrite]

end Sys2Proof.Machine
end

section
/-! The byte-window form (R76): the window of five bytes is the MemRead of forty bits from a byte boundary on, of the memory cut at
`len`, so its bits are bits of that memory. -/

namespace Sys2Proof.Machine

/-! ## The memory cut at a length -/

/-- The first `len` bytes of a memory, an unwritten one as 0, and nothing past them. -/
def Memory.cut (m : Memory 8) (len : Nat) : Memory 8 := Memory.fill [] len m.at

theorem Memory.at_cut (m : Memory 8) (len i : Nat) : (m.cut len).at i = if i < len then m.at i else 0 := by
  rw [Memory.cut, Memory.at_fill]
  rfl

theorem lbit_cut (m : Memory 8) {len a : Nat} (ha : a < 8 * len) : lbit (m.cut len) a = lbit m a := by
  rw [lbit, Memory.at_cut, if_pos (by omega), lbit]

theorem memRead_cut (m : Memory 8) {len k n : Nat} (hr : k + n ≤ 8 * len) : memRead (m.cut len) k n = memRead m k n :=
  memRead_congr fun _ hi => lbit_cut m (by omega)

/-! ## Windows -/

/-- R33: a range inside a wider one is the wider one's MemRead, shifted and cut. -/
theorem memRead_div_mod (m : Memory 8) {k n b w : Nat} (h : b + w ≤ n) :
    memRead m k n / 2 ^ b % 2 ^ w = memRead m (k + b) w := by
  refine Nat.eq_of_testBit_eq fun i => ?_
  rw [Nat.testBit_mod_two_pow, Nat.testBit_div_two_pow, testBit_memRead, testBit_memRead]
  by_cases hi : i < w
  · rw [decide_eq_true hi, decide_eq_true (show i + b < n by omega), Bool.true_and, Nat.add_assoc, Nat.add_comm b i]
  · rw [decide_eq_false hi, Bool.false_and, Bool.false_and]

/-- One whole byte more at the end of a range of whole bytes. -/
theorem memRead_succ_byte (m : Memory 8) (i n : Nat) :
    memRead m (8 * i) (8 * n + 8) = memRead m (8 * i) (8 * n) + (m.at (i + n)).toNat * 2 ^ (8 * n) := by
  rw [memRead_add, ← Nat.mul_add, memRead_byte]

/-- R76: five bytes by their weights are the forty bits at the first of them. -/
theorem memRead_window (m : Memory 8) (i : Nat) :
    memRead m (8 * i) 40 = (m.at i).toNat + (m.at (i + 1)).toNat * 2 ^ 8 + (m.at (i + 2)).toNat * 2 ^ 16 +
      (m.at (i + 3)).toNat * 2 ^ 24 + (m.at (i + 4)).toNat * 2 ^ 32 := by
  rw [memRead_succ_byte m i 4, memRead_succ_byte m i 3, memRead_succ_byte m i 2, memRead_succ_byte m i 1, memRead_byte]

/-- R76: bit `p` of the masked window `(win & ~m) | ((v mod 2^w) << b)`. -/
theorem getLsbD_maskedWindow (win v b w : Nat) {p : Nat} (hp : p < 40) :
    ((BitVec.ofNat 40 win &&& ~~~BitVec.ofNat 40 ((2 ^ w - 1) * 2 ^ b)) ||| BitVec.ofNat 40 (v % 2 ^ w * 2 ^ b)).getLsbD p =
      if b ≤ p ∧ p < b + w then v.testBit (p - b) else win.testBit p := by
  simp only [BitVec.getLsbD_or, BitVec.getLsbD_and, BitVec.getLsbD_not, BitVec.getLsbD_ofNat, decide_eq_true hp, Bool.true_and,
    Nat.testBit_mul_two_pow, Nat.testBit_mod_two_pow, Nat.testBit_two_pow_sub_one]
  by_cases hb : b ≤ p
  · by_cases hw : p < b + w
    · simp [hb, hw, show p - b < w by omega]
    · simp [hb, hw, show ¬ p - b < w by omega]
  · simp [hb]

/-- Settles O27: the window is a MemRead, and MemWrite gives each bit of its bytes what the masked window has there. -/
theorem windowForm : Obligations.WindowForm := by
  intro m len k w val hw hr byte win mask win'
  have hbyte : ∀ i, byte i = ((m.cut len).at i).toNat := fun i => by
    by_cases hi : i < len <;> simp [byte, hi, Memory.at_cut]
  have hwin : win = memRead (m.cut len) (8 * (k / 8)) 40 := by
    simp only [memRead_window, ← hbyte, win]
  have hk : 8 * (k / 8) + k % 8 = k := Nat.div_add_mod k 8
  constructor
  · rw [hwin, memRead_div_mod _ (by omega), hk, memRead_cut m hr]
  · refine fun j hj hlen => BitVec.eq_of_getLsbD_eq fun i hi => ?_
    have hp : 8 * j + i < 40 := by omega
    have hold : win.testBit (8 * j + i) = lbit m (8 * (k / 8 + j) + i) := by
      rw [hwin, testBit_memRead, decide_eq_true hp, Bool.true_and, ← Nat.add_assoc, ← Nat.mul_add, lbit_cut m (by omega)]
    rw [← lbit_of_byte _ _ hi, lbit_memWrite, BitVec.getLsbD_extractLsb', decide_eq_true hi, Bool.true_and,
      getLsbD_maskedWindow _ _ _ _ hp, hold, BitVec.testBit_toNat]
    by_cases hin : k ≤ 8 * (k / 8 + j) + i ∧ 8 * (k / 8 + j) + i < k + w
    · rw [if_pos hin, if_pos (by omega), show 8 * (k / 8 + j) + i - k = 8 * j + i - k % 8 by omega]
    · rw [if_neg hin, if_neg (by omega)]

end Sys2Proof.Machine
end

section
/-! The packer (41_packer.md): the length functions (R84), the group map in the arithmetic of R82 and as a bit stream (R83), the
outcomes of UNPACK and PACK (R80, R81), and how the two undo each other (R85 to R88). The round trips follow from the bit stream:
an unpacked byte and a packed cell hold the bits of the same addresses. -/

namespace Sys2Proof.Machine

/-! ## The length functions (R84) -/

section Lengths
variable {n m : Nat}

/-- R84: fewer than two cells after the full groups yield no byte. -/
theorem ulen_of_mod_lt_two (h : n % 8 < 2) : ulen n = 7 * (n / 8) := by
  rw [ulen, if_neg (Nat.not_le.2 h), Nat.add_zero]

/-- R84: a partial group of `T >= 2` cells yields `T - 1` bytes. -/
theorem ulen_of_two_le_mod (h : 2 ≤ n % 8) : ulen n = 7 * (n / 8) + (n % 8 - 1) := by
  rw [ulen, if_pos h]

/-- R84: eight bits of every byte come from seven bits of a cell, so no byte is without its cells. -/
theorem eight_mul_ulen_le (n : Nat) : 8 * ulen n ≤ 7 * n := by
  unfold ulen
  split <;> omega

theorem ulen_plen (h : m % 7 = 0) : ulen (plen m) = m := by
  rw [ulen_of_mod_lt_two (by unfold plen; omega), plen]
  omega

theorem plen_ulen (h : n % 8 = 0) : plen (ulen n) = n := by
  rw [ulen_of_mod_lt_two (by omega), plen]
  omega

/-- R84: PACK gives full groups only. -/
theorem plen_mod_eight (m : Nat) : plen m % 8 = 0 := Nat.mul_mod_right _ _

end Lengths

/-- Settles O30: clause by clause from the equations of `ulen` and `plen`. -/
theorem lengthFunctions : Obligations.LengthFunctions := by
  refine ⟨fun _ => rfl, fun _ _ => rfl, eight_mul_ulen_le, fun _ => ulen_le_448, fun _ _ => plen_le_512, fun _ => ulen_plen,
    fun n _ h => ?_, by decide⟩
  rw [← h]
  exact plen_mod_eight _

/-! ## The group map in the arithmetic of R82 -/

/-- R82: the low bits of two words shifted and joined in 16 bits, as a number masked to `w` bits. -/
theorem setWidth_joined {n w : Nat} (hn : n ≤ 16) (hw : w ≤ 16) (x y : BitVec n) (a b : Nat) :
    ((x.setWidth 16 >>> a) ||| (y.setWidth 16 <<< b)).setWidth w =
      BitVec.ofNat w (((x.toNat >>> a) ||| (y.toNat <<< b)) &&& (2 ^ w - 1)) := by
  refine BitVec.eq_of_toNat_eq ?_
  rw [Nat.and_two_pow_sub_one_eq_mod, BitVec.toNat_ofNat, Nat.mod_mod]
  have hx : (x.setWidth 16).toNat = x.toNat := BitVec.toNat_setWidth_of_le hn
  have hy : (y.setWidth 16).toNat = y.toNat := BitVec.toNat_setWidth_of_le hn
  rw [BitVec.toNat_setWidth, BitVec.toNat_or, BitVec.toNat_ushiftRight, BitVec.toNat_shiftLeft, hx, hy,
    Nat.or_mod_two_pow, Nat.or_mod_two_pow, Nat.mod_mod_of_dvd _ (Nat.pow_dvd_pow 2 hw)]

/-- R82: an unpacked byte as a number. -/
theorem unpackByte_eq_ofNat (p q : BitVec 7) (j : Nat) :
    unpackByte p q j = BitVec.ofNat 8 (((p.toNat >>> j) ||| (q.toNat <<< (7 - j))) &&& 0xFF) :=
  setWidth_joined (by decide) (by decide) p q j (7 - j)

/-- R82: one of the six middle cells of a group as a number. -/
theorem packMiddle_eq_ofNat (t u : BitVec 8) (k : Nat) :
    packMiddle t u k = BitVec.ofNat 7 (((t.toNat >>> (8 - k)) ||| (u.toNat <<< k)) &&& 0x7F) :=
  setWidth_joined (by decide) (by decide) t u (8 - k) k

/-- R80: byte `j` of group `g` comes from cells `j` and `j + 1` of group `g`. -/
theorem unpackedByte_group (m : Memory 7) (g : Nat) {j : Nat} (hj : j < 7) :
    unpackedByte m (7 * g + j) = unpackByte (m.at (8 * g + j)) (m.at (8 * g + j + 1)) j := by
  rw [unpackedByte, show (7 * g + j) / 7 = g by omega, show (7 * g + j) % 7 = j by omega]

/-- R81: cell `k` of group `g` comes from the bytes of group `g`. -/
theorem packedCell_group (m : Memory 8) (g : Nat) {k : Nat} (hk : k < 8) :
    packedCell m (8 * g + k) = packCell (fun j => m.at (7 * g + j)) k := by
  rw [packedCell, show (8 * g + k) / 8 = g by omega, show (8 * g + k) % 8 = k by omega]

/-- R81, R82: the first cell of a group. -/
theorem packedCell_first (m : Memory 8) (g : Nat) :
    packedCell m (8 * g) = BitVec.ofNat 7 ((m.at (7 * g)).toNat &&& 0x7F) := by
  have hcell : packedCell m (8 * g) = (m.at (7 * g)).setWidth 7 := packedCell_group m g (k := 0) (by decide)
  refine BitVec.eq_of_toNat_eq ?_
  rw [hcell, BitVec.toNat_setWidth, BitVec.toNat_ofNat, Nat.and_two_pow_sub_one_eq_mod _ 7, Nat.mod_mod]

/-- R81, R82: a middle cell of a group. -/
theorem packedCell_middle (m : Memory 8) (g : Nat) {k : Nat} (hpos : 1 ≤ k) (hk : k ≤ 6) :
    packedCell m (8 * g + k) =
      BitVec.ofNat 7 ((((m.at (7 * g + k - 1)).toNat >>> (8 - k)) ||| ((m.at (7 * g + k)).toNat <<< k)) &&& 0x7F) := by
  rw [packedCell_group m g (by omega), packCell, if_neg (by omega), if_neg (by omega), packMiddle_eq_ofNat,
    Nat.add_sub_assoc hpos]

/-- R81, R82: the last cell of a group. -/
theorem packedCell_last (m : Memory 8) (g : Nat) :
    packedCell m (8 * g + 7) = BitVec.ofNat 7 ((m.at (7 * g + 6)).toNat >>> 1) := by
  rw [packedCell_group m g (by decide), packCell, if_neg (by decide), if_pos rfl, ← BitVec.toNat_ushiftRight]
  exact (BitVec.ofNat_toNat ..).symm

/-! ## The group map as a bit stream (R83) -/

/-- Settles O31: both directions of one group, from the bits of a byte and of a cell. -/
theorem groupMapIsBitStream : Obligations.GroupMapIsBitStream := by
  refine ⟨fun p j i hj hi => ?_, fun u a c ha hc => getLsbD_packCell u a c (by omega) hc⟩
  rw [getLsbD_unpackByte _ _ _ _ (by omega) hi]
  split
  · rw [show (8 * j + i) / 7 = j by omega, show (8 * j + i) % 7 = i + j by omega]
  · rw [show (8 * j + i) / 7 = j + 1 by omega, show (8 * j + i) % 7 = i + j - 7 by omega]

/-- R83, R85: bytes packed into `n` cells and unpacked again are the bytes, for every byte whose eight bits are in the cells. -/
theorem unpackedByte_of_packed (w : Memory 7) (l : Memory 8) {n i : Nat} (h : 8 * i + 8 ≤ 7 * n) :
    unpackedByte (w.fill n (packedCell l)) i = l.at i := by
  refine BitVec.eq_of_getLsbD_eq fun c hc => ?_
  rw [getLsbD_unpackedByte _ _ _ hc, Memory.at_fill, if_pos (by omega), getLsbD_packedCell _ _ _ (Nat.mod_lt _ (by decide)),
    Nat.div_add_mod, show (8 * i + c) / 8 = i by omega, show (8 * i + c) % 8 = c by omega]

/-- R83, R86: cells unpacked into `n` bytes and packed again are the cells, for every cell whose seven bits are in the bytes. -/
theorem packedCell_of_unpacked (l : Memory 8) (w : Memory 7) {n i : Nat} (h : 7 * i + 7 ≤ 8 * n) :
    packedCell (l.fill n (unpackedByte w)) i = w.at i := by
  refine BitVec.eq_of_getLsbD_eq fun c hc => ?_
  rw [getLsbD_packedCell _ _ _ hc, Memory.at_fill, if_pos (by omega), getLsbD_unpackedByte _ _ _ (Nat.mod_lt _ (by decide)),
    Nat.div_add_mod, show (7 * i + c) / 7 = i by omega, show (7 * i + c) % 7 = c by omega]

/-- R83: a cell all of whose bits lie in zero bytes is zero. -/
theorem packedCell_eq_zero {m : Memory 8} {i : Nat} (h : ∀ j, 7 * i < 8 * j + 8 → 8 * j < 7 * i + 7 → m.at j = 0) :
    packedCell m i = 0 := by
  refine BitVec.eq_of_getLsbD_eq fun c hc => ?_
  rw [getLsbD_packedCell _ _ _ hc, h _ (by omega) (by omega)]
  simp

/-- R87: the bytes unpacked from `n` cells, `T = n mod 8` at least 1, depend on the low `T - 1` bits of the last cell only. -/
theorem unpackedByte_congr_lowBits {w w' : Memory 7} {n i : Nat} (hT : 1 ≤ n % 8)
    (hcells : ∀ j, j + 1 < n → w.at j = w'.at j)
    (hlast : ∀ c, c < n % 8 - 1 → (w.at (n - 1)).getLsbD c = (w'.at (n - 1)).getLsbD c) (hi : i < ulen n) :
    unpackedByte w i = unpackedByte w' i := by
  have hlen : ulen n = 7 * (n / 8) + (n % 8 - 1) := by
    unfold ulen
    split <;> omega
  refine BitVec.eq_of_getLsbD_eq fun c hc => ?_
  rw [getLsbD_unpackedByte _ _ _ hc, getLsbD_unpackedByte _ _ _ hc]
  by_cases hcell : (8 * i + c) / 7 + 1 < n
  · rw [hcells _ hcell]
  · rw [show (8 * i + c) / 7 = n - 1 by omega]
    exact hlast _ (by omega)

/-! ## The two commands (R80, R81) -/

section Commands
variable {s : State}

/-- R80: UNPACK has no check, so with F = 0 it completes from every legal state. -/
theorem State.Inv.exec_unpack (h : s.Inv) (hF : faultFlag s = false) :
    exec .unpack s = .next (s.withLogical (ulen s.wlen.toNat) (unpackedByte s.wbuf)) :=
  exec_completes hF rfl (h.needOf (i := .unpack) rfl)

/-- R81: with F = 0 and LLEN a multiple of 7, PACK completes from every legal state. -/
theorem State.Inv.exec_pack (h : s.Inv) (hF : faultFlag s = false) (hlen : s.llen.toNat % 7 = 0) :
    exec .pack s = .next (s.withWire (plen s.llen.toNat) (packedCell s.lbuf)) := by
  have hc : checkOf .pack s = none := (packCheck_eq_none s).2 hlen
  exact exec_completes hF hc (h.needOf hc)

/-- R81: with F = 0 and any other LLEN, PACK faults with PACK_LEN. -/
theorem exec_pack_packLen (hF : faultFlag s = false) (hlen : s.llen.toNat % 7 ≠ 0) :
    exec .pack s = .next (takeFault .packLen (encode .pack) s) :=
  exec_raises hF (by rw [checkOf, packCheck, if_pos hlen])

/-- A byte below LLEN of a legal state reads as its value. -/
theorem State.Inv.read_lbuf (h : s.Inv) {i : Nat} (hi : i < s.llen.toNat) : s.lbuf.read i = some (s.lbuf.at i) :=
  Memory.read_eq_at _ (h.byteHeld hi)

/-- A cell below WLEN of a legal state reads as its value. -/
theorem State.Inv.read_wbuf (h : s.Inv) {i : Nat} (hi : i < s.wlen.toNat) : s.wbuf.read i = some (s.wbuf.at i) :=
  Memory.read_eq_at _ (h.cellHeld hi)

/-- The state after UNPACK is legal. -/
theorem State.Inv.unpacked (h : s.Inv) : (s.withLogical (ulen s.wlen.toNat) (unpackedByte s.wbuf)).Inv :=
  h.withLogical (ulen_le_448 h.wlen_le) _

/-- The state after PACK is legal. -/
theorem State.Inv.packed (h : s.Inv) : (s.withWire (plen s.llen.toNat) (packedCell s.lbuf)).Inv :=
  h.withWire (plen_le_512 h.llen_le) _

/-- LLEN after UNPACK. -/
theorem State.Inv.toNat_llen_unpacked (h : s.Inv) (f : Nat → BitVec 8) :
    (s.withLogical (ulen s.wlen.toNat) f).llen.toNat = ulen s.wlen.toNat :=
  toNat_length (Nat.le_trans (ulen_le_448 h.wlen_le) (by decide))

/-- WLEN after PACK. -/
theorem State.Inv.toNat_wlen_packed (h : s.Inv) (f : Nat → BitVec 7) :
    (s.withWire (plen s.llen.toNat) f).wlen.toNat = plen s.llen.toNat :=
  toNat_length (plen_le_512 h.llen_le)

/-- R80: what UNPACK leaves at byte `j` of group `g`, with the two cells it comes from. -/
theorem State.Inv.read_unpacked_group (h : s.Inv) {g j : Nat} (hj : j < 7) (hlen : 7 * g + j < ulen s.wlen.toNat) :
    ∃ p q, s.wbuf.read (8 * g + j) = some p ∧ s.wbuf.read (8 * g + j + 1) = some q ∧
      (s.lbuf.fill (ulen s.wlen.toNat) (unpackedByte s.wbuf)).read (7 * g + j) =
        some (BitVec.ofNat 8 (((p.toNat >>> j) ||| (q.toNat <<< (7 - j))) &&& 0xFF)) := by
  have hcells := eight_mul_ulen_le s.wlen.toNat
  refine ⟨_, _, h.read_wbuf (by omega), h.read_wbuf (by omega), ?_⟩
  rw [Memory.read_fill, if_pos hlen, unpackedByte_group _ _ hj, unpackByte_eq_ofNat]

end Commands

/-! ## What the commands do -/

/-- Settles O28: a byte of a full group and one of the partial group are both bytes below the new LLEN. -/
theorem unpackResult : Obligations.UnpackResult := by
  intro s hs hF n len
  have hlen : ulen s.wlen.toNat = len := rfl
  refine ⟨fun d => decode_eq_ok_iff.trans eq_comm, _, hs.exec_unpack hF, fun g j hg hj => ?_, fun j hT hj => ?_,
    fun a ha => ?_⟩
  · exact hs.read_unpacked_group hj (by omega)
  · have hpartial : ulen s.wlen.toNat = 7 * (n / 8) + (n % 8 - 1) := ulen_of_two_le_mod hT
    exact hs.read_unpacked_group (by omega) (by omega)
  · exact (Memory.read_fill ..).trans (if_neg (Nat.not_lt.2 ha))

/-- Settles O29: the cells of a group by their place in it, and the check. -/
theorem packResult : Obligations.PackResult := by
  intro s hF
  refine ⟨fun d => decode_eq_ok_iff.trans eq_comm, fun hs hlen => ?_, fun hlen => exec_pack_packLen hF hlen⟩
  have hread : ∀ a, a < 8 * (s.llen.toNat / 7) →
      (s.wbuf.fill (plen s.llen.toNat) (packedCell s.lbuf)).read a = some (packedCell s.lbuf a) :=
    fun a ha => (Memory.read_fill ..).trans (if_pos ha)
  refine ⟨_, hs.exec_pack hF hlen, fun g hg => ⟨?_, fun k hpos hk => ?_, ?_⟩, fun a ha => ?_⟩
  · exact ⟨_, hs.read_lbuf (by omega), by rw [hread _ (by omega), packedCell_first]⟩
  · exact ⟨_, _, hs.read_lbuf (by omega), hs.read_lbuf (by omega), by rw [hread _ (by omega), packedCell_middle _ _ hpos hk]⟩
  · exact ⟨_, hs.read_lbuf (by omega), by rw [hread _ (by omega), packedCell_last]⟩
  · exact (Memory.read_fill ..).trans (if_neg (Nat.not_lt.2 ha))

/-- Settles O32: the byte at the address is an unpacked byte, whose bits are the wire buffer's of the same addresses. -/
theorem unpackIsBitStream : Obligations.UnpackIsBitStream := by
  intro s hs hF
  have hlen := hs.toNat_llen_unpacked (unpackedByte s.wbuf)
  have hcells := eight_mul_ulen_le s.wlen.toNat
  refine ⟨_, hs.exec_unpack hF, hlen, fun a ha => ?_⟩
  rw [hlen] at ha
  refine ⟨_, hs.read_wbuf (by omega), unpackedByte s.wbuf (a / 8), ?_, ?_⟩
  · rw [State.withLogical_lbuf, Memory.read_fill, if_pos (by omega)]
  · rw [getLsbD_unpackedByte _ _ _ (Nat.mod_lt _ (by decide)), Nat.div_add_mod]

/-! ## Round trips (R85, R86) -/

/-- Settles O33: the cells that PACK writes hold every bit of the logical buffer. -/
theorem packUnpackRoundTrip : Obligations.PackUnpackRoundTrip := by
  intro s hs hF hlen
  have hwlen := hs.toNat_wlen_packed (packedCell s.lbuf)
  have hulen : ulen (s.withWire (plen s.llen.toNat) (packedCell s.lbuf)).wlen.toNat = s.llen.toNat := by
    rw [hwlen, ulen_plen hlen]
  refine ⟨_, _, hs.exec_pack hF hlen, hs.packed.exec_unpack hF, ?_, fun i hi => ?_, ?_⟩
  · rw [State.withLogical_llen, hulen, BitVec.ofNat_toNat, BitVec.setWidth_eq]
  · rw [State.withLogical_lbuf, Memory.read_fill, hulen, if_pos hi, State.withWire_wbuf,
      unpackedByte_of_packed _ _ (by unfold plen; omega), hs.read_lbuf hi]
  · rw [State.withLogical_wlen, hwlen, plen]
    omega

/-- Settles O34: the bytes that UNPACK writes hold every bit of a wire buffer of full groups. -/
theorem unpackPackRoundTrip : Obligations.UnpackPackRoundTrip := by
  intro s hs hF hlen
  have hfull : ulen s.wlen.toNat = 7 * (s.wlen.toNat / 8) := ulen_of_mod_lt_two (by omega)
  have hllen := hs.toNat_llen_unpacked (unpackedByte s.wbuf)
  have hplen : plen (s.withLogical (ulen s.wlen.toNat) (unpackedByte s.wbuf)).llen.toNat = s.wlen.toNat := by
    rw [hllen, plen_ulen hlen]
  refine ⟨_, _, hs.exec_unpack hF, hs.unpacked.exec_pack hF (by omega), ?_, fun i hi => ?_⟩
  · rw [State.withWire_wlen, hplen, BitVec.ofNat_toNat, BitVec.setWidth_eq]
  · rw [State.withWire_wbuf, Memory.read_fill, hplen, if_pos hi, State.withLogical_lbuf,
      packedCell_of_unpacked _ _ (by omega), hs.read_wbuf hi]

/-! ## Partial groups (R87, R88) -/

/-- Settles O35: every bit of the unpacked bytes is a bit in which the two wire buffers agree. -/
theorem partialGroupIgnoresHighBits : Obligations.PartialGroupIgnoresHighBits := by
  intro s s' hs hs' hF hF' hwlen hT hcells hlast
  refine ⟨_, _, hs.exec_unpack hF, hs'.exec_unpack hF', by rw [State.withLogical_llen, State.withLogical_llen, hwlen],
    fun i hi => ?_⟩
  rw [hs.toNat_llen_unpacked] at hi
  rw [State.withLogical_lbuf, State.withLogical_lbuf, Memory.read_fill, Memory.read_fill, ← hwlen, if_pos hi, if_pos hi]
  have hpos : s.wlen.toNat - 1 < s.wlen.toNat := by omega
  refine congrArg some (unpackedByte_congr_lowBits hT (fun j hj => Memory.at_congr (hcells j hj)) ?_ hi)
  exact hlast _ _ (hs.read_wbuf hpos) (hs'.read_wbuf (hwlen ▸ hpos))

/-- Settles O36: the bytes of a partial group of two cells or more are no full group, and one cell alone yields no byte. -/
theorem partialGroupIsNotRestored : Obligations.PartialGroupIsNotRestored := by
  intro s hs hF
  have hllen := hs.toNat_llen_unpacked (unpackedByte s.wbuf)
  refine ⟨fun hT => ⟨_, hs.exec_unpack hF, ?_⟩, fun hT => ?_⟩
  · have hbytes := hllen.trans (ulen_of_two_le_mod hT)
    exact exec_pack_packLen hF (by omega)
  · have hbytes := hllen.trans (ulen_of_mod_lt_two (by omega))
    have hplen : plen (s.withLogical (ulen s.wlen.toNat) (unpackedByte s.wbuf)).llen.toNat = 8 * (s.wlen.toNat / 8) := by
      rw [hbytes, plen]
      omega
    have hwlen := fun f => (hs.unpacked.toNat_wlen_packed f).trans hplen
    exact ⟨_, _, hs.exec_unpack hF, hs.unpacked.exec_pack hF (by omega), hwlen _, by rw [hwlen]; omega⟩

/-- Settles O37: past the cell of the last bit of byte `m - 1` all bits are padding, and the cells up to it hold every byte. -/
theorem paddedPackUnpacksToTheBytes : Obligations.PaddedPackUnpacksToTheBytes := by
  intro s m hs hF hR hlen hpad
  have hplen : plen s.llen.toNat = 8 * (m / 7 + 1) := by rw [hlen, plen]; omega
  have hwlen := (hs.toNat_wlen_packed (packedCell s.lbuf)).trans hplen
  refine ⟨_, hs.exec_pack hF (by omega), hwlen, fun i hi hit => ?_, fun r hr hrF hrlen hcells => ?_⟩
  · rw [hwlen] at hit
    rw [State.withWire_wbuf, Memory.read_fill, hplen, if_pos hit,
      packedCell_eq_zero fun j hj hj' => Memory.at_of_read _ (hpad j (by omega) (by omega))]
  · have hulen : ulen r.wlen.toNat = m := by
      rw [hrlen, ulen_of_two_le_mod (by omega)]
      omega
    refine ⟨_, hr.exec_unpack hrF, (hr.toNat_llen_unpacked _).trans hulen, fun i hi => ?_⟩
    have hi' : i < ulen r.wlen.toNat := by rw [hulen]; exact hi
    rw [State.withLogical_lbuf, Memory.read_fill, if_pos hi', unpackedByte_congr_below hcells hi', State.withWire_wbuf,
      unpackedByte_of_packed _ _ (by omega), hs.read_lbuf (by omega)]

end Sys2Proof.Machine
end

section
/-! Buffer access and system commands (42_buffer_and_system.md, R90 to R94): which check of each command fails when, what a command
that completes leaves, and FCLR, the only command executed while F = 1. -/

namespace Sys2Proof.Machine

/-! ## The checks that fail -/

theorem lclrCheck_range {n : BitVec 16} (h : 448 < n.toNat) : lclrCheck n = some .range := by
  rw [lclrCheck, lBytes_eq, if_pos h]

/-- R92: WFULL is the cause of a full buffer only when DATA7 is not. -/
theorem wpushCheck_wfull {b : BitVec 8} {s : State} (hb : b.getLsbD 7 = false) (h : s.wlen.toNat = 512) :
    wpushCheck b s = some .wfull := by
  rw [wpushCheck, if_neg (Bool.eq_false_iff.1 hb), wBytes_eq, if_pos h]

theorem wrdCheck_range {idx : BitVec 16} {s : State} (h : s.wlen.toNat ≤ idx.toNat) : wrdCheck idx s = some .range := by
  rw [wrdCheck, if_pos h]

/-! ## The buffer commands -/

section Commands
variable {s : State}

/-- R90: LCLR writes the bytes of LBUF below `n`, and LLEN is its operand. -/
theorem exec_lclr {n : BitVec 16} (hF : faultFlag s = false) (hn : n.toNat ≤ 448) :
    exec (.lclr n) s = .next { s with lbuf := s.lbuf.fill n.toNat (fun _ => 0), llen := n } := by
  have hc : checkOf (.lclr n) s = none := (lclrCheck_eq_none n).2 hn
  rw [exec_completes hF hc rfl, effectOf, State.withLogical, BitVec.ofNat_toNat, BitVec.setWidth_eq]

/-- R92: WPUSH of a byte below 0x80 writes the cell at WLEN, which there is room for, and adds one to WLEN. -/
theorem exec_wpush {b : BitVec 8} (hF : faultFlag s = false) (hb : b.getLsbD 7 = false) (hw : s.wlen.toNat < 512) :
    exec (.wpush b) s = .next { s with wbuf := s.wbuf.write s.wlen.toNat (b.setWidth 7), wlen := s.wlen + 1 } := by
  have hc : checkOf (.wpush b) s = none := (wpushCheck_eq_none b s).2 ⟨hb, Nat.ne_of_lt hw⟩
  have hroom : needOf (.wpush b) s = none := (roomForCell_eq_none _).2 hw
  have hwlen : BitVec.ofNat 16 (s.wlen.toNat + 1) = s.wlen + 1 := by
    rw [BitVec.ofNat_add, BitVec.ofNat_toNat, BitVec.setWidth_eq]
    rfl
  rw [exec_completes hF hc hroom, effectOf, State.withCell, hwlen]

/-- R93: from a legal state WRD of a cell below WLEN puts it into RES. -/
theorem State.Inv.exec_wrd (h : s.Inv) (hF : faultFlag s = false) {idx : BitVec 16} (hi : idx.toNat < s.wlen.toNat) :
    exec (.wrd idx) s = .next (s.withRes ((s.wbuf.at idx.toNat).setWidth 32)) := by
  have hc : checkOf (.wrd idx) s = none := (wrdCheck_eq_none idx s).2 hi
  exact exec_completes hF hc (h.needOf hc)

end Commands

/-- Settles O38: LCLR fills LBUF with zero bytes up to its operand, or its check fails. -/
theorem lclrResult : Obligations.LclrResult := by
  intro n s hF
  refine ⟨fun d => decode_eq_ok_iff.trans eq_comm, fun hn => ⟨_, exec_lclr hF hn, fun i hi => ?_, fun a ha => ?_⟩,
    fun hn => exec_raises (i := .lclr n) hF (lclrCheck_range hn)⟩
  · rw [Memory.read_fill, if_pos hi]
  · rw [Memory.read_fill, if_neg (Nat.not_lt.2 ha)]

/-- Settles O39: WCLR has no check and needs nothing, so it always completes. -/
theorem wclrResult : Obligations.WclrResult :=
  ⟨fun _ => decode_eq_ok_iff.trans eq_comm, fun _ hF => exec_completes (i := .wclr) hF rfl rfl⟩

/-- Settles O40: WPUSH writes one cell, or the first of its two checks that fails is the cause. -/
theorem wpushResult : Obligations.WpushResult := by
  intro b s hF
  refine ⟨fun d => decode_eq_ok_iff.trans eq_comm, fun hb hw => ⟨_, exec_wpush hF hb hw, ?_, fun a ha => ?_⟩,
    fun hb => exec_raises (i := .wpush b) hF (wpushCheck_data7 hb s),
    fun hb hw => exec_raises (i := .wpush b) hF (wpushCheck_wfull hb hw)⟩
  · rw [Memory.read_write_same, BitVec.setWidth_eq_extractLsb' (by decide)]
  · exact Memory.read_write_other _ _ ha

/-- Settles O41: a cell below WLEN of a legal state has a value, and WRD puts it into RES; any other index fails the check. -/
theorem wrdResult : Obligations.WrdResult := by
  intro idx s hF
  exact ⟨fun d => decode_eq_ok_iff.trans eq_comm, fun hs hi => ⟨_, hs.read_wbuf hi, hs.exec_wrd hF hi⟩,
    fun hi => exec_raises (i := .wrd idx) hF (wrdCheck_range hi)⟩

/-! ## FCLR (R94) -/

/-- FCLR is executed whatever F is, and clears the three fault registers. -/
theorem exec_fclr (s : State) : exec .fclr s = .next (returnFromFault s) := rfl

/-- R21: in a legal state with F = 0 the three fault registers are clear already. -/
theorem State.Inv.returnFromFault_eq_self {s : State} (h : s.Inv) (hF : faultFlag s = false) : Machine.returnFromFault s = s := by
  obtain ⟨-, -, -, -, hstatus, herr, heinfo, -⟩ := h
  rw [State.StatusLegal, hF] at hstatus
  rw [Machine.returnFromFault, State.withFaultRegs, ← hstatus, ← herr.1 hF, ← heinfo hF]

/-- The only command with code 9 is FCLR (R53). -/
theorem eq_fclr_of_descOp {i : Instr} (h : descOp (encode i) = 0x09) : i = .fclr := by
  cases i <;> simp [encode] at h ⊢

/-- R55: code 9 with any other bit set is no command's descriptor. -/
theorem illegal_of_code_fclr {d : Descriptor} (hop : descOp d = 0x09) (hd : d ≠ 0x0900000000000000) :
    ∃ e, decode d = .error e := by
  refine illegal_iff.2 ?_
  rintro i rfl
  obtain rfl := eq_fclr_of_descOp hop
  exact hd rfl

/-- Settles O42: FCLR clears the fault registers in every state, the other commands are dropped while F = 1, and a descriptor of its
code that is not its own is illegal. -/
theorem fclrResult : Obligations.FclrResult := by
  refine ⟨fun d => decode_eq_ok_iff.trans eq_comm, exec_fclr, fun s hs hF => ?_, fun i s hi hF => exec_dropped hi hF,
    fun s => acceptCommand_encode .fclr s, fun d s hop hd => ?_⟩
  · rw [exec_fclr, hs.returnFromFault_eq_self hF]
  · obtain ⟨e, he⟩ := illegal_of_code_fclr hop hd
    exact acceptCommand_illegal he s

end Sys2Proof.Machine
end

section
/-! Faults (60_exceptions.md, R100 to R112): what a descriptor does while F = 1, which causes each command can raise, and that
raising one writes the fault registers only. -/

namespace Sys2Proof.Machine

/-- Settles O46: a state without a coming transaction waits, and under the invariant every transaction answers a next state. -/
theorem stepNeverStops : Obligations.StepNeverStops := fun _ h => h.step_progress

/-! ## The faulted state (R106) -/

/-- R106: while F = 1 every descriptor but FCLR's is dropped, legal or not. -/
theorem acceptCommand_dropped {d : Descriptor} {s : State} (hd : d ≠ 0x0900000000000000) (hF : faultFlag s = true) :
    acceptCommand d s = .next s := by
  cases hdec : decode d with
  | error e => exact (acceptCommand_illegal hdec s).2 hF
  | ok i =>
    have hi : i ≠ .fclr := by
      rintro rfl
      exact hd (eq_fclr_of_decode hdec)
    rw [acceptCommand_of_decode hdec, exec_dropped hi hF]

/-- R94: FCLR's descriptor is executed whatever F is. -/
theorem acceptCommand_fclr (s : State) : acceptCommand 0x0900000000000000 s = .next (returnFromFault s) :=
  acceptCommand_encode .fclr s

/-- No register number names the host's transactions (R23). -/
@[simp] theorem readPort_withHost (s : State) (rest : List HostAction) (n : Fin 8) :
    readPort (s.withHost rest) n = readPort s n := rfl

/-- Settles O14: the step is the one transaction on the port, and F does not depend on the transactions to come. -/
theorem faultedStateDropsCommands : Obligations.FaultedStateDropsCommands := by
  intro s d rest hF
  refine ⟨fun hd hhost => ?_, fun hhost => ?_, fun n hhost => ?_⟩
  · have hF' : faultFlag (s.withHost rest) = true := hF
    rw [step_of_host_cons hhost, transact_command, acceptCommand_dropped hd hF']
    rfl
  · rw [step_of_host_cons hhost, transact_command, acceptCommand_fclr]
    rfl
  · rw [step_of_host_cons hhost, transact_read, readPort_withHost]
    rfl

/-! ## The causes of each command (R102) -/

/-- R102: the causes a legal descriptor of each command can raise, in the order of the checks. -/
def causesOf : Instr → List Cause
  | .extract _ _ => [.badWidth, .range]
  | .set _ _ _ => [.badWidth, .range]
  | .unpack => []
  | .pack => [.packLen]
  | .lclr _ => [.range]
  | .wclr => []
  | .wpush _ => [.data7, .wfull]
  | .wrd _ => [.range]
  | .fclr => []

/-- R72: the two checks of EXTRACT and SET. -/
theorem accessCheck_cause {off : BitVec 16} {w : BitVec 8} {s : State} {c : Cause} (h : accessCheck off w s = some c) :
    c = .badWidth ∨ c = .range := by
  unfold accessCheck at h
  split_ifs at h
  · exact .inl (Option.some.inj h).symm
  · exact .inr (Option.some.inj h).symm

/-- A command's check fails with one of its own causes. -/
theorem checkOf_mem_causesOf {i : Instr} {s : State} {c : Cause} (h : checkOf i s = some c) : c ∈ causesOf i := by
  cases i with
  | extract off w => exact List.mem_pair.2 (accessCheck_cause h)
  | set off w val => exact List.mem_pair.2 (accessCheck_cause h)
  | pack =>
    simp only [checkOf, packCheck] at h
    split_ifs at h
    cases h
    simp [causesOf]
  | lclr n =>
    simp only [checkOf, lclrCheck] at h
    split_ifs at h
    cases h
    simp [causesOf]
  | wpush b =>
    simp only [checkOf, wpushCheck] at h
    split_ifs at h
    · cases h
      simp [causesOf]
    · cases h
      simp [causesOf]
  | wrd idx =>
    simp only [checkOf, wrdCheck] at h
    split_ifs at h
    cases h
    simp [causesOf]
  | _ => cases h

/-! ## A descriptor that faults -/

/-- R104, R105: a descriptor that raises F has entered a fault with itself, and a legal one by its own check: commands that
complete leave F = 0. -/
theorem acceptCommand_faults {d : Descriptor} {s t : State} (hF : faultFlag s = false) (h : acceptCommand d s = .next t)
    (ht : faultFlag t = true) :
    ∃ c, t = takeFault c d s ∧ (∀ e, decode d = .error e → c = .illegalCmd) ∧
      (∀ i, decode d = .ok i → checkOf i s = some c) := by
  cases hd : decode d with
  | error e =>
    rw [(acceptCommand_illegal hd s).1 hF] at h
    cases h
    exact ⟨.illegalCmd, rfl, fun _ _ => rfl, nofun⟩
  | ok i =>
    rw [acceptCommand_of_decode hd] at h
    rcases exec_next h with ⟨-, hF', -⟩ | ⟨-, -, c, hc, rfl⟩ | ⟨hrun, -, -, rfl⟩
    · simp [hF] at hF'
    · refine ⟨c, by rw [encode_of_decode hd], nofun, ?_⟩
      rintro j ⟨⟩
      exact hc
    · simp [faultFlag_effectOf hrun] at ht

/-- Settles O15: entering a fault writes the three fault registers only, and every cause code is 1 to 6. -/
theorem faultsArePrecise : Obligations.FaultsArePrecise := by
  intro d s t hF h ht
  obtain ⟨c, rfl, -, -⟩ := acceptCommand_faults hF h ht
  exact ⟨rfl, code_bounds c⟩

/-- Settles O16: the cause is ILLEGAL_CMD, or one of those R102 lists for the command the descriptor decodes to. -/
theorem causesOfEachCommand : Obligations.CausesOfEachCommand := by
  intro d s t hF h ht
  obtain ⟨c, rfl, hillegal, hlegal⟩ := acceptCommand_faults hF h ht
  have hcause : ∀ i, decode d = .ok i → c ∈ causesOf i := fun i hi => checkOf_mem_causesOf (hlegal i hi)
  have hcode : ∀ {c' : Cause}, c = c' → (takeFault c d s).err = c'.code := by rintro _ rfl; rfl
  have hnone : c ∉ ([] : List Cause) := List.not_mem_nil
  have hone : ∀ {c₁ : Cause}, c ∈ [c₁] → (takeFault c d s).err = c₁.code := fun hc => hcode (List.mem_singleton.1 hc)
  have htwo : ∀ {c₁ c₂ : Cause}, c ∈ [c₁, c₂] → (takeFault c d s).err = c₁.code ∨ (takeFault c d s).err = c₂.code :=
    fun hc => (List.mem_pair.1 hc).imp hcode hcode
  exact ⟨fun e hd => hcode (hillegal e hd),
    fun off w hd => htwo (hcause _ hd),
    fun off w val hd => htwo (hcause _ hd),
    ⟨fun hd => hnone (hcause _ hd), fun hd => hnone (hcause _ hd), fun hd => hnone (hcause _ hd)⟩,
    fun hd => hone (hcause _ hd),
    fun n hd => hone (hcause _ hd),
    fun b hd => htwo (hcause _ hd),
    fun idx hd => hone (hcause _ hd)⟩

/-! ## Priority (R103) -/

/-- Settles O17: each check tests the lower code first, so the other causes, which also hold, do not matter. -/
theorem lowestCauseWins : Obligations.LowestCauseWins := by
  intro s hF
  refine ⟨fun off w hw _ => ?_, fun off w val hw _ => ?_, fun b hb _ => ?_, fun d e hd => ?_⟩
  · exact ⟨_, exec_raises (i := .extract off w) hF (accessCheck_badWidth hw off s), rfl⟩
  · exact ⟨_, exec_raises (i := .set off w val) hF (accessCheck_badWidth hw off s), rfl⟩
  · exact ⟨_, exec_raises (i := .wpush b) hF (wpushCheck_data7 hb s), rfl⟩
  · exact ⟨_, (acceptCommand_illegal hd s).1 hF, rfl⟩

end Sys2Proof.Machine
end

section
/-! Reset (70_reset_and_hazards.md section 2): which descriptors complete. From a legal state with F = 0 they are the commands whose
check passes; at reset both lengths are 0, which decides every check from the operands alone. -/

namespace Sys2Proof.Machine

/-- R61, R112: from a legal state with F = 0 a descriptor completes exactly when it is a command's and the command's check passes. -/
theorem State.Inv.acceptCommand_completes_iff {s : State} (h : s.Inv) (hF : faultFlag s = false) {d : Descriptor} :
    (∃ t, acceptCommand d s = .next t ∧ faultFlag t = false) ↔ ∃ i, encode i = d ∧ checkOf i s = none := by
  constructor
  · rintro ⟨t, hd, ht⟩
    rcases acceptCommand_next hd with ⟨hF', -⟩ | ⟨-, c, rfl⟩ | ⟨i, hi, -, hc, -, -⟩
    · simp [hF] at hF'
    · simp at ht
    · exact ⟨i, encode_of_decode hi, hc⟩
  · rintro ⟨i, rfl, hc⟩
    refine ⟨effectOf i s, ?_, faultFlag_effectOf (.inr hF)⟩
    rw [acceptCommand_encode, exec_completes hF hc (h.needOf hc)]

/-! ## The checks at reset -/

/-- R72: in an empty logical buffer only the empty field at bit address 0 is in range. -/
theorem accessCheck_reset_eq_none {off : BitVec 16} {w : BitVec 8} :
    accessCheck off w State.reset = none ↔ off = 0 ∧ w = 0 := by
  have hllen : State.reset.llen.toNat = 0 := rfl
  rw [accessCheck_eq_none, hllen, ← BitVec.toNat_inj, ← BitVec.toNat_inj]
  simp only [BitVec.ofNat_eq_ofNat, BitVec.toNat_ofNat, Nat.zero_mod]
  omega

/-- R92: an empty wire buffer is not full, so bit 7 of the byte decides. -/
theorem wpushCheck_reset_eq_none {b : BitVec 8} : wpushCheck b State.reset = none ↔ b.toNat < 0x80 := by
  have hbit : b.getLsbD 7 = false ↔ 2 * b.toNat < 2 ^ 8 := by
    rw [← BitVec.msb_eq_false_iff_two_mul_lt, BitVec.msb_eq_getLsbD_last]
  have hwlen : State.reset.wlen.toNat ≠ 512 := by decide
  rw [wpushCheck_eq_none, and_iff_left hwlen, hbit]
  omega

/-- R93: no index is below the length of an empty wire buffer. -/
theorem wrdCheck_reset_ne_none (idx : BitVec 16) : wrdCheck idx State.reset ≠ none :=
  fun hc => Nat.not_lt_zero idx.toNat ((wrdCheck_eq_none idx _).1 hc)

/-- Settles O49: the reset state is legal with F = 0, so the commands that complete are those whose check passes there. -/
theorem commandsThatCompleteFromReset : Obligations.CommandsThatCompleteFromReset := by
  intro d
  rw [reset_inv.acceptCommand_completes_iff faultFlag_reset]
  constructor
  · rintro ⟨i, rfl, hc⟩
    cases i with
    | lclr n => exact .inl ⟨n, (lclrCheck_eq_none n).1 hc, rfl⟩
    | wpush b => exact .inr (.inl ⟨b, wpushCheck_reset_eq_none.1 hc, rfl⟩)
    | wclr => exact .inr (.inr (.inl rfl))
    | fclr => exact .inr (.inr (.inr (.inl rfl)))
    | unpack => exact .inr (.inr (.inr (.inr (.inl rfl))))
    | pack => exact .inr (.inr (.inr (.inr (.inr (.inl rfl)))))
    | extract off w =>
      obtain ⟨rfl, rfl⟩ := accessCheck_reset_eq_none.1 hc
      exact .inr (.inr (.inr (.inr (.inr (.inr (.inl rfl))))))
    | set off w val =>
      obtain ⟨rfl, rfl⟩ := accessCheck_reset_eq_none.1 hc
      exact .inr (.inr (.inr (.inr (.inr (.inr (.inr ⟨val, rfl⟩))))))
    | wrd idx => exact absurd hc (wrdCheck_reset_ne_none idx)
  · rintro (⟨n, hn, rfl⟩ | ⟨b, hb, rfl⟩ | rfl | rfl | rfl | rfl | rfl | ⟨v, rfl⟩)
    · exact ⟨.lclr n, rfl, (lclrCheck_eq_none n).2 hn⟩
    · exact ⟨.wpush b, rfl, wpushCheck_reset_eq_none.2 hb⟩
    · exact ⟨.wclr, rfl, rfl⟩
    · exact ⟨.fclr, rfl, rfl⟩
    · exact ⟨.unpack, rfl, rfl⟩
    · exact ⟨.pack, rfl, rfl⟩
    · exact ⟨.extract 0 0, rfl, accessCheck_reset_eq_none.2 ⟨rfl, rfl⟩⟩
    · exact ⟨.set 0 0 v, rfl, accessCheck_reset_eq_none.2 ⟨rfl, rfl⟩⟩

end Sys2Proof.Machine
end
